-- ==== Sys2Proof/Word.lean ====
section
/-! DEFINITION. The word types of BFXP, with the widths of 00_scope.md rule R5. -/

namespace Sys2Proof

/-- One byte of a payload, and the command byte. -/
abbrev Byte := BitVec 8

/-- A raw value, a bound, a mask or a send value: `VAL_BITS` = 16, unsigned (R5). -/
abbrev Half := BitVec 16

/-- A frame identifier: `ID_BITS` = 32 (R5). -/
abbrev FrameId := BitVec 32

/-- A `signalId`: `SIGID_BITS` = 16 (R5). -/
abbrev SignalId := BitVec 16

/-- A signal name: a field of `NAME_BYTES` = 16 bytes, compared whole (R5, R89). -/
abbrev Name := BitVec 128

/-- A table length or index: `LEN_BITS` = 16 (R5). -/
abbrev Len := BitVec 16

/-- A bit offset in a payload: `BITPOS_BITS` = 8 (R5). -/
abbrev BitPos := BitVec 8

/-- The operand word `cmd_arg`: as wide as the widest layout, that of a send (R84, R94). -/
abbrev ArgWord := BitVec 144

/-- The 8 bytes `data[0]` to `data[7]` of a frame (R7, R28). -/
abbrev Payload := Vector Byte 8

end Sys2Proof
end

