-- ==== Sys2Proof/Syntax.lean ====
section
/-! DEFINITION. The names, records and instructions of BFXP: type tags, entry points, frames,
descriptors, and one constructor of `Instr` per row of spec/opcode_table.json. -/

namespace Sys2Proof

/-- A descriptor's type: the four codes of the 2-bit type tag (R85). -/
inductive TypeTag where
  /-- code 0 -/
  | bool
  /-- code 1 -/
  | u8
  /-- code 2 -/
  | u16
  /-- code 3: no operation is defined for it -/
  | unsupported
  deriving DecidableEq, Repr, Inhabited

/-- A send command's entry point `T`: one of the three value types (R80). -/
inductive EntryPoint where
  | bool
  | u8
  | u16
  deriving DecidableEq, Repr, Inhabited

/-- The type tag with the same code as an entry point (R80). -/
def EntryPoint.tag : EntryPoint → TypeTag
  | .bool => .bool
  | .u8 => .u8
  | .u16 => .u16

/-- A frame record: an inbound frame, a live buffer, the argument of a `TX` event (R28). -/
structure Frame where
  id : FrameId
  dlc : BitVec 4
  data : Payload
  deriving DecidableEq, Repr, Inhabited

/-- A signal descriptor: one entry of DT (R23). -/
structure Descriptor where
  frameId : FrameId
  signalId : SignalId
  name : Name
  startBit : BitPos
  endBit : BitPos
  min : Half
  max : Half
  type : TypeTag
  deriving DecidableEq, Repr, Inhabited

/-- The context in which the sequencer invokes the engine (R93). -/
inductive EngineCtx where
  | decode
  | encode
  deriving DecidableEq, Repr, Inhabited

/-- What the sequencer fetches: a command from the host's port (R80), or an engine selector of
its own (R93). -/
inductive FetchWord where
  | command (op : Byte) (arg : ArgWord)
  | selector (ctx : EngineCtx) (sel : BitVec 2)
  deriving DecidableEq, Repr

/-- The instructions, one constructor per row of the opcode table. An engine operation takes its
operands from the datapath, so only its selector's free bit is an operand here (R93). -/
inductive Instr where
  /-- INIT_DEC, R81 -/
  | initDec (tblPresent logPresent : Bool) (cbPresent : BitVec 3) (tblLen : Len)
  /-- INIT_ENC, R82 -/
  | initEnc (lbPresent logPresent txPresent : Bool) (lbLenOp : Len)
  /-- PROCESS_FRAME, R83 -/
  | processFrame (f : Frame)
  /-- RESERVED_3: the reserved command byte itself, 0x03 or any byte with bits 7..3 not 0, R86 -/
  | reserved3 (op : Byte)
  /-- SEND_BOOL, R84 -/
  | sendBool (name : Name) (valueOp : Half)
  /-- SEND_U8, R84 -/
  | sendU8 (name : Name) (valueOp : Half)
  /-- SEND_U16, R84 -/
  | sendU16 (name : Name) (valueOp : Half)
  /-- RESERVED_7: the command byte 0x07, R86 -/
  | reserved7
  /-- EXTRACT8: selector `0t` in the decode context, `t` = 0 for Bool and 1 for UInt8, R112 -/
  | extract8 (t : BitVec 1)
  /-- EXTRACT16: selector `10` in the decode context, R113 -/
  | extract16
  /-- UNSUPPORTED_DEC: selector `11` in the decode context, R144 -/
  | unsupportedDec
  /-- PACK8: selector `0t` in the encode context, R114 -/
  | pack8 (t : BitVec 1)
  /-- PACK16: selector `10` in the encode context, R115 -/
  | pack16
  /-- UNSUPPORTED_ENC: selector `11` in the encode context, R173 -/
  | unsupportedEnc
  deriving DecidableEq, Repr

end Sys2Proof
end

