-- ==== Sys2Proof/Config.lean ====
section
/-! DEFINITION. What an implementation of BFXP fixes (R5): the table capacities and the encoder's
type policy; and the free values, which the spec leaves open (R33, U14). -/

namespace Sys2Proof

/-- `ENC_TYPE_POLICY` (R5, R175): which type check the encoder makes. A model argument, so it
stands in `State.policy`; both values are modelled (log entry 4). -/
inductive EncTypePolicy where
  /-- the descriptor's type is the entry point's: the value the spec takes -/
  | fixed
  /-- the descriptor's type is UInt8, whatever the entry point -/
  | reference
  deriving DecidableEq, Repr, Inhabited

/-- `N_MAX`, the capacity of DT: OPEN in R5, at most `2^LEN_BITS - 1`.
DESIGN CHOICE, log entry 5: the largest the spec allows, so that no length operand exceeds it (U8). -/
def Config.nMax : Nat := 65535

/-- `M_MAX`, the capacity of LB: OPEN in R5, at most `2^LEN_BITS - 1`.
DESIGN CHOICE, log entry 5: the largest the spec allows. -/
def Config.mMax : Nat := 65535

/-- FREE VALUE (log entry 3): what entry `i` of DT holds when the host has never loaded it (R252). -/
opaque Config.unloadedDescriptor : Nat → Descriptor

/-- FREE VALUE (log entry 3): what entry `j` of LB holds when the host has never written it
(R33 "unspecified", U14 "any value"). -/
opaque Config.unfilledBuffer : Nat → Frame

end Sys2Proof
end

