-- ==== Sys2Proof/WellFormed.lean ====
section
/-! DEFINITION. Well-formed instructions (R80, R86), and the spec's predicates on descriptors:
`DescOK` (R117) and `DescFit` (R118). -/

namespace Sys2Proof

/-- A reserved command byte carried by `Instr.reserved3`: code 3, or any of bits 7..3 not 0 (R86). -/
def reservedByte (op : Byte) : Bool :=
  op == 3#8 || op.extractLsb' 3 5 != 0#5

/-- The check on instructions: only the reserved command byte can be out of range; every other
operand field may hold any value (R80 to R84, R86, R93). -/
def wellFormed : Instr → Bool
  | .reserved3 op => reservedByte op
  | .initDec _ _ _ _ | .initEnc _ _ _ _ | .processFrame _ => true
  | .sendBool _ _ | .sendU8 _ _ | .sendU16 _ _ | .reserved7 => true
  | .extract8 _ | .extract16 | .unsupportedDec => true
  | .pack8 _ | .pack16 | .unsupportedEnc => true

/-- `endBit - startBit + 1` in unbounded integers (R111). -/
def fieldWidth (startBit endBit : BitPos) : Int :=
  (endBit.toNat : Int) - (startBit.toNat : Int) + 1

/-- The width clause of `DescOK`: the mask table has an entry (R117). -/
def widthOk (startBit endBit : BitPos) : Bool :=
  decide (1 ≤ fieldWidth startBit endBit ∧ fieldWidth startBit endBit ≤ 16)

/-- `DescOK` for a window of `n` bytes: the width clause, and the window inside the payload (R117). -/
def windowOk (n : Nat) (startBit endBit : BitPos) : Bool :=
  widthOk startBit endBit && decide (startBit.toNat / 8 + n ≤ 8)

/-- `DescFit` for a window of `n` bytes: the field inside the window (R118). -/
def windowFit (n : Nat) (startBit endBit : BitPos) : Bool :=
  decide ((startBit.toNat % 8 : Int) + fieldWidth startBit endBit ≤ 8 * n)

/-- The window of a type, in bytes; none for an unsupported type (R85). -/
def TypeTag.windowBytes : TypeTag → Option Nat
  | .bool | .u8 => some 1
  | .u16 => some 2
  | .unsupported => none

/-- `DescOK(d)` (R117): the engine's formulas have a meaning for `d`. -/
def DescOK (d : Descriptor) : Bool :=
  match d.type.windowBytes with
  | none => true
  | some n => windowOk n d.startBit d.endBit

/-- `DescFit(d)` (R118): the field of `d` lies inside the window of its type. -/
def DescFit (d : Descriptor) : Bool :=
  match d.type.windowBytes with
  | none => true
  | some n => windowFit n d.startBit d.endBit

end Sys2Proof
end

