-- ==== Sys2Proof/Decode.lean ====
section
/-! DEFINITION. From bits to instructions and back: the type tag (R85), the record layouts
(R87, R88), the command byte with its operand word (R80 to R84, R86) and the engine selector (R93).
Decoding is total: every command byte and every selector has a meaning, the reserved ones by a
constructor of their own. -/

namespace Sys2Proof

/-- The code of a type tag (R85). -/
def TypeTag.code : TypeTag → BitVec 2
  | .bool => 0
  | .u8 => 1
  | .u16 => 2
  | .unsupported => 3

/-- The type tag with a code (R85). -/
def TypeTag.ofCode (c : BitVec 2) : TypeTag :=
  if c = 0#2 then .bool
  else if c = 1#2 then .u8
  else if c = 2#2 then .u16
  else .unsupported

/-- The code of an entry point: the low two bits of its command byte (R80). -/
def EntryPoint.code (t : EntryPoint) : BitVec 2 := t.tag.code

/-- A payload as a 64-bit value: `P[8k+7:8k] = data[k]` (R7). -/
def Payload.toBits (p : Payload) : BitVec 64 :=
  p[7] ++ p[6] ++ p[5] ++ p[4] ++ p[3] ++ p[2] ++ p[1] ++ p[0]

/-- The payload with given 64 bits (R7). -/
def Payload.ofBits (b : BitVec 64) : Payload :=
  #v[b.extractLsb' 0 8, b.extractLsb' 8 8, b.extractLsb' 16 8, b.extractLsb' 24 8,
     b.extractLsb' 32 8, b.extractLsb' 40 8, b.extractLsb' 48 8, b.extractLsb' 56 8]

/-- The frame record: `data` in bits 63..0, `dlc` in 67..64, `id` in 99..68 (R88). -/
def Frame.toBits (f : Frame) : BitVec 100 :=
  f.id ++ f.dlc ++ Payload.toBits f.data

/-- The frame a record holds (R88). -/
def Frame.ofBits (b : BitVec 100) : Frame where
  id := b.extractLsb' 68 32
  dlc := b.extractLsb' 64 4
  data := Payload.ofBits (b.extractLsb' 0 64)

/-- The descriptor record: `type` 1..0, `startBit` 9..2, `endBit` 17..10, `min` 33..18,
`max` 49..34, `signalId` 65..50, `frameId` 97..66, `name` 225..98 (R87). -/
def Descriptor.toBits (d : Descriptor) : BitVec 226 :=
  d.name ++ d.frameId ++ d.signalId ++ d.max ++ d.min ++ d.endBit ++ d.startBit ++ d.type.code

/-- The descriptor a record holds (R87). -/
def Descriptor.ofBits (b : BitVec 226) : Descriptor where
  type := TypeTag.ofCode (b.extractLsb' 0 2)
  startBit := b.extractLsb' 2 8
  endBit := b.extractLsb' 10 8
  min := b.extractLsb' 18 16
  max := b.extractLsb' 34 16
  signalId := b.extractLsb' 50 16
  frameId := b.extractLsb' 66 32
  name := b.extractLsb' 98 128

/-- Operands of INIT_DEC: `tbl_present` [0], `log_present` [1], `cb_present` [4:2],
`tbl_len` [20:5] (R81). -/
def decodeInitDec (arg : ArgWord) : Instr :=
  .initDec (arg.getLsbD 0) (arg.getLsbD 1) (arg.extractLsb' 2 3) (arg.extractLsb' 5 16)

/-- Operands of INIT_ENC: `lb_present` [0], `log_present` [1], `tx_present` [2],
`lb_len_op` [18:3] (R82). -/
def decodeInitEnc (arg : ArgWord) : Instr :=
  .initEnc (arg.getLsbD 0) (arg.getLsbD 1) (arg.getLsbD 2) (arg.extractLsb' 3 16)

/-- Operand of PROCESS_FRAME: one frame record in bits [99:0] (R83). -/
def decodeProcessFrame (arg : ArgWord) : Instr :=
  .processFrame (Frame.ofBits (arg.extractLsb' 0 100))

/-- The name operand of a send: bits [143:16] (R84). -/
def argName (arg : ArgWord) : Name := arg.extractLsb' 16 128

/-- The value operand of a send: bits [15:0] (R84). -/
def argValue (arg : ArgWord) : Half := arg.extractLsb' 0 16

/-- The command a command byte and its operand word stand for (R80, R86). Operand bits above the
ones a layout names are ignored. -/
def decodeCommand (op : Byte) (arg : ArgWord) : Instr :=
  if op = 0x00#8 then decodeInitDec arg
  else if op = 0x01#8 then decodeInitEnc arg
  else if op = 0x02#8 then decodeProcessFrame arg
  else if op = 0x04#8 then .sendBool (argName arg) (argValue arg)
  else if op = 0x05#8 then .sendU8 (argName arg) (argValue arg)
  else if op = 0x06#8 then .sendU16 (argName arg) (argValue arg)
  else if op = 0x07#8 then .reserved7
  else .reserved3 op

/-- The engine operation a selector stands for in a context (R93). -/
def decodeSelector (ctx : EngineCtx) (sel : BitVec 2) : Instr :=
  match ctx with
  | .decode =>
    if sel.getLsbD 1 = false then .extract8 (sel.extractLsb' 0 1)
    else if sel.getLsbD 0 = false then .extract16
    else .unsupportedDec
  | .encode =>
    if sel.getLsbD 1 = false then .pack8 (sel.extractLsb' 0 1)
    else if sel.getLsbD 0 = false then .pack16
    else .unsupportedEnc

/-- The instruction of what the sequencer fetches. -/
def decodeFetch : FetchWord → Instr
  | .command op arg => decodeCommand op arg
  | .selector ctx sel => decodeSelector ctx sel

/-- One presence operand as a bit. -/
def presenceBit (b : Bool) : BitVec 1 := BitVec.ofBool b

/-- The operand word of a send (R84). -/
def sendArg (name : Name) (valueOp : Half) : ArgWord := name ++ valueOp

/-- The words of an instruction, from the same tables (R80 to R84, R86, R93); unnamed operand bits
are 0. -/
def encode : Instr → FetchWord
  | .initDec tbl log cb len =>
    .command 0x00#8 ((len ++ cb ++ presenceBit log ++ presenceBit tbl).setWidth 144)
  | .initEnc lb log tx len =>
    .command 0x01#8 ((len ++ presenceBit tx ++ presenceBit log ++ presenceBit lb).setWidth 144)
  | .processFrame f => .command 0x02#8 (f.toBits.setWidth 144)
  | .reserved3 op => .command op 0
  | .sendBool name v => .command 0x04#8 (sendArg name v)
  | .sendU8 name v => .command 0x05#8 (sendArg name v)
  | .sendU16 name v => .command 0x06#8 (sendArg name v)
  | .reserved7 => .command 0x07#8 0
  | .extract8 t => .selector .decode (0#1 ++ t)
  | .extract16 => .selector .decode 2#2
  | .unsupportedDec => .selector .decode 3#2
  | .pack8 t => .selector .encode (0#1 ++ t)
  | .pack16 => .selector .encode 2#2
  | .unsupportedEnc => .selector .encode 3#2

/-- What an instruction whose bits are `w`, `nbits` of them given and the rest 0, is fetched as.
Bits 7..0 of a command are its command byte and the operand word's bits follow from bit 8; a 2-bit
word is an engine selector, read in the decode context (log entry 10). -/
def fetchWordOfBits (nbits w : Nat) : Option FetchWord :=
  let v := w % 2 ^ nbits
  if nbits = 2 then some (.selector .decode (BitVec.ofNat 2 v))
  else if 8 ≤ nbits ∧ nbits ≤ 152 then
    some (.command (BitVec.ofNat 8 v) (BitVec.ofNat 144 (v / 256)))
  else none

/-- The instruction the decoder reads from a word of the opcode table. -/
def decodeTableWord (nbits w : Nat) : Option Instr :=
  (fetchWordOfBits nbits w).map decodeFetch

end Sys2Proof
end

