-- ==== Sys2Proof/Machine/State.lean ====
section
/-! DEFINITION. The state of BFXP as plain data (10_state.md), the events it emits (R90 to R92),
the host's actions (R264), the reasons a step can stop, and the state after reset (R33). -/

namespace Sys2Proof.Machine

/-- An index space whose entries the host fills: (index, record) pairs with indices strictly
rising. An entry that is not listed holds nothing the host has written (R22, R27, R50). -/
abbrev Memory (α : Type) := List (Nat × α)

/-- The severities of the logger (R91). -/
inductive Severity where
  | debug
  | info
  | warning
  deriving DecidableEq, Repr

/-- The report conditions, with the values each records (R92, R222). `i` is a descriptor index. -/
inductive Report where
  /-- code 1, raised by PROCESS_FRAME when the decoder is not ready (R141) -/
  | decNotInit
  /-- code 2, raised by PROCESS_FRAME (R143) -/
  | frameTooShort (i : Len) (dlc : BitVec 4)
  /-- code 3, raised by PROCESS_FRAME (R144) -/
  | unsupportedType (i : Len)
  /-- code 4, raised by PROCESS_FRAME (R145) -/
  | outOfBounds (i : Len) (raw : Half)
  /-- code 5, raised by a send (R171) -/
  | unknownSignal (name : Name)
  /-- code 6, raised by a send (R172) -/
  | noBuffer (i : Len)
  /-- code 7, raised by a send (R173) -/
  | encReject (i : Len) (value : Half) (entry : EntryPoint)
  deriving DecidableEq, Repr

/-- The events of the output stream (R90). -/
inductive Event where
  /-- kind 0, `CB_BOOL` -/
  | cbBool (name : Name) (signalId : SignalId) (value : BitVec 1)
  /-- kind 1, `CB_U8` -/
  | cbU8 (name : Name) (signalId : SignalId) (value : BitVec 8)
  /-- kind 2, `CB_U16` -/
  | cbU16 (name : Name) (signalId : SignalId) (value : Half)
  /-- kind 4, `TX`: identifier, dlc and all 8 data bytes -/
  | tx (frame : Frame)
  /-- kind 5, `RPT` -/
  | rpt (severity : Severity) (report : Report)
  deriving DecidableEq, Repr

/-- What the host does next, always between commands (R60, R264). -/
inductive HostAction where
  /-- present a command byte and its operand word (R80) -/
  | command (op : Byte) (arg : ArgWord)
  /-- load entry `i` of DT (R22, R63) -/
  | writeDescriptor (i : Len) (d : Descriptor)
  /-- write entry `j` of LB: identifier, dlc and data (R27, R60) -/
  | writeBuffer (j : Len) (f : Frame)
  /-- apply the reset (R250) -/
  | reset
  deriving DecidableEq, Repr

/-- The sequencer's transient datapath (R20): the operands of an engine operation and what it
computes from them. No command reads or writes it (log entry 7). -/
structure Datapath where
  /-- the engine invocation in hand, if any (R93) -/
  request : Option (EngineCtx × BitVec 2)
  /-- the scan index of the descriptor in hand (R21) -/
  scan : Len
  startBit : BitPos
  endBit : BitPos
  payload : Payload
  /-- the value of a send -/
  value : Half
  /-- the entry point of a send -/
  entry : EntryPoint
  byteOffset : BitVec 5
  bitShift : BitVec 3
  width : Int
  mask : Half
  win : Half
  raw : Half
  deriving DecidableEq, Repr

/-- The machine (R25, R26, R27, R32), with the configuration the step reads (R22, R175), the host's
pending actions and the engine's datapath. -/
structure State where
  /-- `ENC_TYPE_POLICY`, written by no step (R5, R175) -/
  policy : EncTypePolicy
  /-- `dec_ready` (R25) -/
  decReady : Bool
  /-- `dec_log_en` (R25) -/
  decLogEn : Bool
  /-- `cb_en[2:0]` (R25) -/
  cbEn : BitVec 3
  /-- `dt_len` (R25) -/
  dtLen : Len
  /-- `enc_ready` (R26) -/
  encReady : Bool
  /-- `enc_log_en` (R26) -/
  encLogEn : Bool
  /-- `lb_len` (R26) -/
  lbLen : Len
  /-- DT, as far as the host has loaded it (R22) -/
  dt : Memory Descriptor
  /-- LB, as far as the host or a send has written it (R27) -/
  lb : Memory Frame
  /-- the host rewrote a DT entry in use and has not issued INIT_DEC since (R63, R259, log entry 6) -/
  dtStale : Bool
  /-- the host's pending actions, oldest first (R60, log entry 1) -/
  port : List HostAction
  /-- the output stream, oldest first (R32) -/
  out : List Event
  /-- the `ok` bits of the INIT commands, oldest first (R202) -/
  results : List Bool
  /-- the engine's datapath (R20, R93) -/
  dp : Datapath
  deriving DecidableEq, Repr

/-- Why the machine stops with a fault. The block itself never traps (R220). -/
inductive Fault where
  /-- Raised by a host write of a table entry at or beyond the table's capacity: no such storage
  exists (R50, log entry 5). Raised by no instruction. Safe: the machine stops. -/
  | noSuchEntry
  deriving DecidableEq, Repr

/-- Why the model refuses a step. -/
inductive Refusal where
  /-- Raised by `exec` for an instruction with no meaning yet: none is left. Safe. -/
  | notModelled (mnemonic : String)
  /-- Raised by PROCESS_FRAME, the sends and the engine operations when the engine is invoked for a
  field that fails `DescOK`: the spec gives no result (R117, U1, log entry 12). Safe. -/
  | descriptorNotOk
  /-- Raised by PROCESS_FRAME and the sends when the host has rewritten a DT entry in use and not
  issued INIT_DEC since: outside the spec (R63, R259, U9, log entry 6). Safe. -/
  | tableChangedInUse
  deriving DecidableEq, Repr

/-- The idle datapath: nothing in hand. The spec gives its values no reset (R33).
DESIGN CHOICE, log entry 7: zeros. -/
def Datapath.idle : Datapath where
  request := none
  scan := 0
  startBit := 0
  endBit := 0
  payload := #v[0, 0, 0, 0, 0, 0, 0, 0]
  value := 0
  entry := .bool
  byteOffset := 0
  bitShift := 0
  width := 0
  mask := 0
  win := 0
  raw := 0

/-- The state after reset (R33, R250): both components not ready, nothing supplied, nothing
emitted; no host action pending. -/
def State.reset : State where
  policy := .fixed
  decReady := false
  decLogEn := false
  cbEn := 0
  dtLen := 0
  encReady := false
  encLogEn := false
  lbLen := 0
  dt := []
  lb := []
  dtStale := false
  port := []
  out := []
  results := []
  dp := Datapath.idle

end Sys2Proof.Machine
end

