-- ==== Sys2Proof/Machine/Ops.lean ====
section
/-! DEFINITION. The named operations over the tables, the payload and the output stream: table
read and write (R8, R50), `MemRead` and `MemWrite` (R8, R51, R55), `emit` and `raise` (R8, R221).
`raise` stands where another machine takes an exception: the block never transfers control on a
condition (R220, R225), it reports. -/

namespace Sys2Proof.Machine

/-- The record at index `i`, if it is listed. -/
def Memory.find? {α : Type} : Memory α → Nat → Option α
  | [], _ => none
  | (k, a) :: m, i => if k = i then some a else Memory.find? m i

/-- The memory with `a` at index `i`; the indices stay strictly rising. -/
def Memory.write {α : Type} : Memory α → Nat → α → Memory α
  | [], i, a => [(i, a)]
  | (k, b) :: m, i, a =>
    if i < k then (i, a) :: (k, b) :: m
    else if i = k then (i, a) :: m
    else (k, b) :: Memory.write m i a

/-- The canonical form, from index `lo` up: strictly rising indices below the capacity. -/
def Memory.wfFrom {α : Type} (cap : Nat) : Nat → Memory α → Bool
  | _, [] => true
  | lo, (k, _) :: m => decide (lo ≤ k) && decide (k < cap) && Memory.wfFrom cap (k + 1) m

/-- The canonical form: equal tables are equal data. -/
def Memory.wf {α : Type} (cap : Nat) (m : Memory α) : Bool := Memory.wfFrom cap 0 m

/-- `DT[i]` (R8): an entry the host never loaded is a free value (log entry 3). -/
def State.descriptor (s : State) (i : Nat) : Descriptor :=
  (s.dt.find? i).getD (Config.unloadedDescriptor i)

/-- `LB[j]` (R8): an entry nobody wrote is a free value (log entry 3). -/
def State.buffer (s : State) (j : Nat) : Frame :=
  (s.lb.find? j).getD (Config.unfilledBuffer j)

/-- `LB[j].data <- data` (R8): identifier and dlc stay (R27). -/
def State.setBufferData (s : State) (j : Nat) (data : Payload) : State :=
  { s with lb := s.lb.write j { s.buffer j with data := data } }

/-- `MemRead(buf, k, 1)` (R8), inside the payload only (R55). -/
def memRead8 (buf : Payload) (k : Nat) : Option Byte := buf[k]?

/-- `MemRead(buf, k, 2)`, little-endian (R8, R51), inside the payload only (R55). -/
def memRead16 (buf : Payload) (k : Nat) : Option Half :=
  match buf[k]?, buf[k + 1]? with
  | some lo, some hi => some (hi ++ lo)
  | _, _ => none

/-- `MemWrite(buf, k, 1, v)` (R8), where `MemRead` is defined. -/
def memWrite8 (buf : Payload) (k : Nat) (v : Byte) : Payload := buf.setIfInBounds k v

/-- `MemWrite(buf, k, 2, v)`, little-endian (R8, R51), where `MemRead` is defined. -/
def memWrite16 (buf : Payload) (k : Nat) (v : Half) : Payload :=
  (buf.setIfInBounds k (v.extractLsb' 0 8)).setIfInBounds (k + 1) (v.extractLsb' 8 8)

/-- `emit`: append events to the output stream (R8, R32). -/
def State.emit (s : State) (es : List Event) : State :=
  { s with out := s.out ++ es }

/-- The events of `raise` under a log enable: one warning report when it is 1, nothing when it
is 0 (R91, R221). -/
def raised (logEn : Bool) (r : Report) : List Event :=
  if logEn then [.rpt .warning r] else []

/-- `raise` by the decoder: gated by `dec_log_en` (R221). -/
def State.raiseDec (s : State) (r : Report) : State := s.emit (raised s.decLogEn r)

/-- `raise` by the encoder: gated by `enc_log_en` (R221). -/
def State.raiseEnc (s : State) (r : Report) : State := s.emit (raised s.encLogEn r)

/-- The result bit of an INIT command (R202). -/
def State.giveResult (s : State) (ok : Bool) : State :=
  { s with results := s.results ++ [ok] }

/-- The code of a report (R92). -/
def Report.code : Report → BitVec 4
  | .decNotInit => 1
  | .frameTooShort _ _ => 2
  | .unsupportedType _ => 3
  | .outOfBounds _ _ => 4
  | .unknownSignal _ => 5
  | .noBuffer _ => 6
  | .encReject _ _ _ => 7

/-- The code of a severity (R91). -/
def Severity.code : Severity → BitVec 2
  | .debug => 0
  | .info => 1
  | .warning => 2

/-- The kind code of an event (R90). -/
def Event.kind : Event → BitVec 3
  | .cbBool _ _ _ => 0
  | .cbU8 _ _ _ => 1
  | .cbU16 _ _ _ => 2
  | .tx _ => 4
  | .rpt _ _ => 5

end Sys2Proof.Machine
end

