-- ==== Sys2Proof/Machine/Operands.lean ====
section
/-! DEFINITION. The operand forms: the value of a send (R84, R174), the value of a callback (R146,
R147), and the window of a descriptor, its mask and its shifts (R110, R111, R124). -/

namespace Sys2Proof.Machine

/-- `zext_16(value_op[W_T - 1 : 0])`, `W_T` = 1, 8, 16 (R84, R174). -/
def sendValue : EntryPoint → Half → Half
  | .bool, v => (v.extractLsb' 0 1).setWidth 16
  | .u8, v => (v.extractLsb' 0 8).setWidth 16
  | .u16, v => v

/-- `conv(Bool, raw)`: 1 when the raw value is not 0 (R146, R147). -/
def convBool (raw : Half) : BitVec 1 := if raw = 0 then 0 else 1

/-- `conv(UInt8, raw)` (R146). -/
def convU8 (raw : Half) : BitVec 8 := raw.extractLsb' 0 8

/-- `MASK[w] = 2^w - 1` for `w` in 1..16; no other entry exists (R24, R110). -/
def maskTable (w : Int) : Option Half :=
  if 1 ≤ w ∧ w ≤ 16 then some (BitVec.ofNat 16 (2 ^ w.toNat - 1)) else none

/-- The four values every engine operation computes first (R111). -/
structure Geometry where
  byteOffset : Nat
  bitShift : Nat
  width : Int
  mask : Half
  deriving DecidableEq, Repr

/-- The geometry of a field; none where the mask table has no entry (R111, R117). -/
def geometry (startBit endBit : BitPos) : Option Geometry :=
  let width : Int := (endBit.toNat : Int) - (startBit.toNat : Int) + 1
  match maskTable width with
  | none => none
  | some mask =>
    some { byteOffset := startBit.toNat / 8, bitShift := startBit.toNat % 8,
           width := width, mask := mask }

/-- `trunc_n(v << k)`: the shift in unbounded integers, then the truncation (R6, R124). -/
def shlTrunc (n : Nat) (v : Half) (k : Nat) : BitVec n := BitVec.ofNat n (v.toNat <<< k)

end Sys2Proof.Machine
end

