-- ==== Sys2Proof/Machine/Flags.lean ====
section
/-! DEFINITION. The block has no flags (R29). What stands in their place are the conditions its
commands compute and act on at once: the frame-length check (R143), the range validator (R145,
R173), the type policy (R175), the callback enables (R25, R148) and the success predicates of the
two INIT commands (R200, R201). -/

namespace Sys2Proof.Machine

/-- `F.dlc * 8 < d.endBit`, unsigned, the product not truncated (R143, C1). -/
def frameTooShort (dlc : BitVec 4) (endBit : BitPos) : Bool :=
  decide (dlc.toNat * 8 < endBit.toNat)

/-- `min <= v <= max`, unsigned, both bounds inclusive (R145, R173). -/
def inRange (min max v : Half) : Bool :=
  decide (min.toNat ≤ v.toNat) && decide (v.toNat ≤ max.toNat)

/-- `TypeOK(T, t)` under a policy (R175). -/
def typeOk (policy : EncTypePolicy) (entry : EntryPoint) (t : TypeTag) : Bool :=
  match policy with
  | .fixed => t == entry.tag
  | .reference => t == .u8

/-- `cb_en[t]` (R25); the unsupported type has no callback. -/
def callbackEnabled (cbEn : BitVec 3) (t : TypeTag) : Bool := cbEn.getLsbD t.code.toNat

/-- The success predicate of INIT_DEC (R200). -/
def initDecOk (tblPresent logPresent : Bool) : Bool := tblPresent && logPresent

/-- The success predicate of INIT_ENC (R201). -/
def initEncOk (lbPresent logPresent txPresent : Bool) (lbLenOp : Len) : Bool :=
  lbPresent && (lbLenOp != 0) && logPresent && txPresent

end Sys2Proof.Machine
end

