-- ==== Sys2Proof/Machine/Engine.lean ====
section
/-! DEFINITION. The Codec Engine (40_codec_engine.md): EXTRACT8, EXTRACT16, PACK8, PACK16 as
functions of a field and a payload, which the commands use; and the engine rows of the opcode table
run as instructions of their own on the datapath (R93, log entry 7). -/

namespace Sys2Proof.Machine

/-- The field of a 1-byte window (R112). -/
def field8 (g : Geometry) (win : Byte) : Half := (win >>> g.bitShift).setWidth 16 &&& g.mask

/-- The field of a 2-byte window (R113). -/
def field16 (g : Geometry) (win : Half) : Half := (win >>> g.bitShift) &&& g.mask

/-- A 1-byte window with the field cleared and the value ORed in, not masked (R114, R126). -/
def merge8 (g : Geometry) (value : Half) (win : Byte) : Byte :=
  (win &&& ~~~ shlTrunc 8 g.mask g.bitShift) ||| shlTrunc 8 value g.bitShift

/-- A 2-byte window with the field cleared and the value ORed in, not masked (R115, R126). -/
def merge16 (g : Geometry) (value : Half) (win : Half) : Half :=
  (win &&& ~~~ shlTrunc 16 g.mask g.bitShift) ||| shlTrunc 16 value g.bitShift

/-- The geometry of a field with its 1-byte window; none where `DescOK` fails (R112, R117). -/
def window8 (startBit endBit : BitPos) (data : Payload) : Option (Geometry × Byte) :=
  match geometry startBit endBit with
  | none => none
  | some g => (memRead8 data g.byteOffset).map fun win => (g, win)

/-- The geometry of a field with its 2-byte window; none where `DescOK` fails (R113, R117). -/
def window16 (startBit endBit : BitPos) (data : Payload) : Option (Geometry × Half) :=
  match geometry startBit endBit with
  | none => none
  | some g => (memRead16 data g.byteOffset).map fun win => (g, win)

/-- `EXTRACT8` (R112). -/
def extract8 (startBit endBit : BitPos) (data : Payload) : Option Half :=
  (window8 startBit endBit data).map fun w => field8 w.1 w.2

/-- `EXTRACT16` (R113). -/
def extract16 (startBit endBit : BitPos) (data : Payload) : Option Half :=
  (window16 startBit endBit data).map fun w => field16 w.1 w.2

/-- `PACK8` (R114). -/
def pack8 (startBit endBit : BitPos) (value : Half) (data : Payload) : Option Payload :=
  (window8 startBit endBit data).map fun w =>
    memWrite8 data w.1.byteOffset (merge8 w.1 value w.2)

/-- `PACK16` (R115). -/
def pack16 (startBit endBit : BitPos) (value : Half) (data : Payload) : Option Payload :=
  (window16 startBit endBit data).map fun w =>
    memWrite16 data w.1.byteOffset (merge16 w.1 value w.2)

/-- The extract operation a descriptor's type selects (R144); used where the type is supported. -/
def extractFor (d : Descriptor) (data : Payload) : Option Half :=
  if d.type = .u16 then extract16 d.startBit d.endBit data
  else extract8 d.startBit d.endBit data

/-- The pack operation a descriptor's type selects, never the entry point (R116, R176). -/
def packFor (d : Descriptor) (value : Half) (data : Payload) : Option Payload :=
  if d.type = .u16 then pack16 d.startBit d.endBit value data
  else pack8 d.startBit d.endBit value data

/-- The datapath with the four values of the geometry and the window read (R20, R111). -/
def Datapath.latch (dp : Datapath) (g : Geometry) (win : Half) : Datapath :=
  { dp with
    byteOffset := BitVec.ofNat 5 g.byteOffset
    bitShift := BitVec.ofNat 3 g.bitShift
    width := g.width
    mask := g.mask
    win := win }

/-- EXTRACT8 on the datapath (R112); Bool and UInt8 are the same to the engine (R116). -/
def execExtract8 (_t : BitVec 1) (s : State) : Host.Outcome State Fault Refusal :=
  match window8 s.dp.startBit s.dp.endBit s.dp.payload with
  | none => .refused .descriptorNotOk
  | some (g, win) =>
    .next { s with dp := { s.dp.latch g (win.setWidth 16) with raw := field8 g win } }

/-- EXTRACT16 on the datapath (R113). -/
def execExtract16 (s : State) : Host.Outcome State Fault Refusal :=
  match window16 s.dp.startBit s.dp.endBit s.dp.payload with
  | none => .refused .descriptorNotOk
  | some (g, win) => .next { s with dp := { s.dp.latch g win with raw := field16 g win } }

/-- UNSUPPORTED_DEC: no engine operation, the descriptor in hand is reported (R93, R144). -/
def execUnsupportedDec (s : State) : Host.Outcome State Fault Refusal :=
  .next (s.raiseDec (.unsupportedType s.dp.scan))

/-- PACK8 on the datapath (R114); Bool and UInt8 are the same to the engine (R116). -/
def execPack8 (_t : BitVec 1) (s : State) : Host.Outcome State Fault Refusal :=
  match window8 s.dp.startBit s.dp.endBit s.dp.payload with
  | none => .refused .descriptorNotOk
  | some (g, win) =>
    .next { s with dp :=
      { s.dp.latch g (win.setWidth 16) with
        payload := memWrite8 s.dp.payload g.byteOffset (merge8 g s.dp.value win) } }

/-- PACK16 on the datapath (R115). -/
def execPack16 (s : State) : Host.Outcome State Fault Refusal :=
  match window16 s.dp.startBit s.dp.endBit s.dp.payload with
  | none => .refused .descriptorNotOk
  | some (g, win) =>
    .next { s with dp :=
      { s.dp.latch g win with
        payload := memWrite16 s.dp.payload g.byteOffset (merge16 g s.dp.value win) } }

/-- UNSUPPORTED_ENC: no engine operation; the type check of the validation fails under both
policies (R93, R173). -/
def execUnsupportedEnc (s : State) : Host.Outcome State Fault Refusal :=
  .next (s.raiseEnc (.encReject s.dp.scan s.dp.value s.dp.entry))

end Sys2Proof.Machine
end

