-- ==== Sys2Proof/Machine/Decoder.lean ====
section
/-! DEFINITION. The decoder's command, PROCESS_FRAME (41_decoder.md rule R140). -/

namespace Sys2Proof.Machine

/-- The callback event of a valid signal (R146); an unsupported type has none. -/
def callbackEvents (d : Descriptor) (raw : Half) : List Event :=
  match d.type with
  | .bool => [.cbBool d.name d.signalId (convBool raw)]
  | .u8 => [.cbU8 d.name d.signalId (convU8 raw)]
  | .u16 => [.cbU16 d.name d.signalId raw]
  | .unsupported => []

/-- Steps 2c and 2d: validate the raw value of descriptor `i`, then notify or report (R145, R148). -/
def dispatchRaw (s : State) (i : Nat) (d : Descriptor) (raw : Half) : List Event :=
  if inRange d.min d.max raw then
    if callbackEnabled s.cbEn d.type then callbackEvents d raw else []
  else raised s.decLogEn (.outOfBounds (BitVec.ofNat 16 i) raw)

/-- The body of the scan for descriptor `i` (R140, steps 2 to 3): the events it emits, at most one,
or a refusal where the engine is invoked without `DescOK`. -/
def decodeEntry (s : State) (f : Frame) (i : Nat) : Except Refusal (List Event) :=
  let d := s.descriptor i
  if d.frameId ≠ f.id then .ok []
  else if frameTooShort f.dlc d.endBit then
    .ok (raised s.decLogEn (.frameTooShort (BitVec.ofNat 16 i) f.dlc))
  else if d.type = .unsupported then
    .ok (raised s.decLogEn (.unsupportedType (BitVec.ofNat 16 i)))
  else
    match extractFor d f.data with
    | none => .error .descriptorNotOk
    | some raw => .ok (dispatchRaw s i d raw)

/-- The scan over `n` descriptors from index `i` up: their events in table order (R142, R149). -/
def scanFrame (s : State) (f : Frame) : Nat → Nat → Except Refusal (List Event)
  | 0, _ => .ok []
  | n + 1, i =>
    match decodeEntry s f i with
    | .error r => .error r
    | .ok es =>
      match scanFrame s f n (i + 1) with
      | .error r => .error r
      | .ok rest => .ok (es ++ rest)

/-- PROCESS_FRAME (R140). A table the host rewrote under the block has no meaning (R63, U9). -/
def execProcessFrame (f : Frame) (s : State) : Host.Outcome State Fault Refusal :=
  if s.decReady = false then .next (s.raiseDec .decNotInit)
  else if s.dtStale then .refused .tableChangedInUse
  else
    match scanFrame s f s.dtLen.toNat 0 with
    | .error r => .refused r
    | .ok es => .next (s.emit es)

end Sys2Proof.Machine
end

