-- ==== Sys2Proof/Machine/Encoder.lean ====
section
/-! DEFINITION. The encoder's commands SEND_BOOL, SEND_U8, SEND_U16 (42_encoder.md): the program of
rule R170, and one meaning per command (R182, R183, R184). -/

namespace Sys2Proof.Machine

/-- A linear scan over `n` indices from `i` up, stopping at the first that `p` accepts (R21). -/
def scanFirst (p : Nat → Bool) : Nat → Nat → Option Nat
  | 0, _ => none
  | n + 1, i => if p i then some i else scanFirst p n (i + 1)

/-- Step 1: the first descriptor in use with the name (R171). -/
def findName (s : State) (name : Name) : Option Nat :=
  scanFirst (fun i => (s.descriptor i).name == name) s.dtLen.toNat 0

/-- Step 2: the first live buffer in use with the frame identifier (R172). -/
def findBuffer (s : State) (id : FrameId) : Option Nat :=
  scanFirst (fun j => (s.buffer j).id == id) s.lbLen.toNat 0

/-- Step 3: ready, type and range (R173). -/
def sendValid (s : State) (entry : EntryPoint) (d : Descriptor) (value : Half) : Bool :=
  s.encReady && typeOk s.policy entry d.type && inRange d.min d.max value

/-- Step 4: pack in place into live buffer `j`, then transmit (R64, R176). -/
def transmit (s : State) (d : Descriptor) (j : Nat) (value : Half) :
    Host.Outcome State Fault Refusal :=
  match packFor d value (s.buffer j).data with
  | none => .refused .descriptorNotOk
  | some data =>
    let s' := s.setBufferData j data
    .next (s'.emit [.tx (s'.buffer j)])

/-- The program common to the three sends (R170). A table the host rewrote under the block has no
meaning (R63, U9). -/
def sendCommon (entry : EntryPoint) (name : Name) (valueOp : Half) (s : State) :
    Host.Outcome State Fault Refusal :=
  if s.dtStale then .refused .tableChangedInUse
  else
    match findName s name with
    | none => .next (s.raiseEnc (.unknownSignal name))
    | some i =>
      match findBuffer s (s.descriptor i).frameId with
      | none => .next (s.raiseEnc (.noBuffer (BitVec.ofNat 16 i)))
      | some j =>
        if sendValid s entry (s.descriptor i) (sendValue entry valueOp) then
          transmit s (s.descriptor i) j (sendValue entry valueOp)
        else .next (s.raiseEnc (.encReject (BitVec.ofNat 16 i) (sendValue entry valueOp) entry))

/-- SEND_BOOL (R182). -/
def execSendBool (name : Name) (valueOp : Half) (s : State) : Host.Outcome State Fault Refusal :=
  sendCommon .bool name valueOp s

/-- SEND_U8 (R183). -/
def execSendU8 (name : Name) (valueOp : Half) (s : State) : Host.Outcome State Fault Refusal :=
  sendCommon .u8 name valueOp s

/-- SEND_U16 (R184). -/
def execSendU16 (name : Name) (valueOp : Half) (s : State) : Host.Outcome State Fault Refusal :=
  sendCommon .u16 name valueOp s

end Sys2Proof.Machine
end

