-- ==== Sys2Proof/Machine/Init.lean ====
section
/-! DEFINITION. The initialisation commands (43_init.md) and the reserved command codes (R86). -/

namespace Sys2Proof.Machine

/-- INIT_DEC (R200): all four fields on every call, successful or not (R203); the table the host
has loaded is the one in use from here on (R63, R204). -/
def execInitDec (tblPresent logPresent : Bool) (cbPresent : BitVec 3) (tblLen : Len) (s : State) :
    Host.Outcome State Fault Refusal :=
  let ok := initDecOk tblPresent logPresent
  .next (State.giveResult
    { s with
      dtLen := if tblPresent then tblLen else 0
      decLogEn := logPresent
      cbEn := cbPresent
      decReady := ok
      dtStale := false } ok)

/-- INIT_ENC (R201): all three fields on every call, successful or not (R203). -/
def execInitEnc (lbPresent logPresent txPresent : Bool) (lbLenOp : Len) (s : State) :
    Host.Outcome State Fault Refusal :=
  let ok := initEncOk lbPresent logPresent txPresent lbLenOp
  .next (State.giveResult
    { s with
      lbLen := if lbPresent then lbLenOp else 0
      encLogEn := logPresent
      encReady := ok } ok)

/-- RESERVED_3 and every command byte with bits 7..3 not 0: ignored (R86). -/
def execReserved3 (_op : Byte) (s : State) : Host.Outcome State Fault Refusal := .next s

/-- RESERVED_7: ignored (R86). -/
def execReserved7 (s : State) : Host.Outcome State Fault Refusal := .next s

end Sys2Proof.Machine
end

