-- ==== Sys2Proof/Machine/Dispatch.lean ====
section
/-! DEFINITION. The dispatch: one arm per instruction, each one call of its meaning. -/

namespace Sys2Proof.Machine

def exec (i : Instr) (s : State) : Host.Outcome State Fault Refusal :=
  match i with
  | .initDec tbl log cb len => Sys2Proof.Machine.execInitDec tbl log cb len s
  | .initEnc lb log tx len => Sys2Proof.Machine.execInitEnc lb log tx len s
  | .processFrame f => Sys2Proof.Machine.execProcessFrame f s
  | .reserved3 op => Sys2Proof.Machine.execReserved3 op s
  | .sendBool name v => Sys2Proof.Machine.execSendBool name v s
  | .sendU8 name v => Sys2Proof.Machine.execSendU8 name v s
  | .sendU16 name v => Sys2Proof.Machine.execSendU16 name v s
  | .reserved7 => Sys2Proof.Machine.execReserved7 s
  | .extract8 t => Sys2Proof.Machine.execExtract8 t s
  | .extract16 => Sys2Proof.Machine.execExtract16 s
  | .unsupportedDec => Sys2Proof.Machine.execUnsupportedDec s
  | .pack8 t => Sys2Proof.Machine.execPack8 t s
  | .pack16 => Sys2Proof.Machine.execPack16 s
  | .unsupportedEnc => Sys2Proof.Machine.execUnsupportedEnc s

end Sys2Proof.Machine
end

