-- ==== Sys2Proof/Machine/Port.lean ====
section
/-! DEFINITION. What the sequencer does next: an engine invocation in hand (R93), else the host's
oldest pending action (R60, R264); and the host's own actions: table writes and reset. -/

namespace Sys2Proof.Machine

/-- What one step does, with the state from which it does it. -/
inductive Fetched where
  /-- no host action pending: the block is idle (R251) -/
  | idle
  /-- run an instruction -/
  | run (word : FetchWord) (s : State)
  /-- the host loads entry `i` of DT -/
  | loadDescriptor (i : Len) (d : Descriptor) (s : State)
  /-- the host writes entry `j` of LB -/
  | fillBuffer (j : Len) (f : Frame) (s : State)
  /-- the host applies the reset -/
  | applyReset (s : State)
  deriving DecidableEq, Repr

/-- The state once the engine invocation in hand has been taken up. -/
def State.takeRequest (s : State) : State := { s with dp := { s.dp with request := none } }

/-- The state once the host's oldest action has been taken up. -/
def State.withPort (s : State) (rest : List HostAction) : State := { s with port := rest }

/-- What the sequencer takes up: the engine invocation in hand before any host action, since the
host acts only between commands (R60). -/
def State.fetch (s : State) : Fetched :=
  match s.dp.request with
  | some (ctx, sel) => .run (.selector ctx sel) s.takeRequest
  | none =>
    match s.port with
    | [] => .idle
    | .command op arg :: rest => .run (.command op arg) (s.withPort rest)
    | .writeDescriptor i d :: rest => .loadDescriptor i d (s.withPort rest)
    | .writeBuffer j f :: rest => .fillBuffer j f (s.withPort rest)
    | .reset :: rest => .applyReset (s.withPort rest)

/-- The host loads entry `i` of DT. A rewrite of an entry in use is marked until the next INIT_DEC
(R63, R259, log entry 6). -/
def hostLoadDescriptor (i : Len) (d : Descriptor) (s : State) : Host.Outcome State Fault Refusal :=
  if i.toNat < Config.nMax then
    .next { s with
      dt := s.dt.write i.toNat d
      dtStale := s.dtStale || decide (i.toNat < s.dtLen.toNat) }
  else .fault .noSuchEntry

/-- The host writes entry `j` of LB: identifier, dlc and data (R27, R60). -/
def hostFillBuffer (j : Len) (f : Frame) (s : State) : Host.Outcome State Fault Refusal :=
  if j.toNat < Config.mMax then .next { s with lb := s.lb.write j.toNat f }
  else .fault .noSuchEntry

/-- The reset (R250): every control field at the value of R33, the output stream empty. DT and LB
are not written (R252), nor the policy; the host's later actions stay pending. -/
def hostReset (s : State) : Host.Outcome State Fault Refusal :=
  .next { State.reset with policy := s.policy, dt := s.dt, lb := s.lb, port := s.port }

/-- The state with a fetched word placed so that the next step runs exactly it: a command at the
head of the host's port, an engine selector as the invocation in hand. -/
def State.present (s : State) (w : FetchWord) : State :=
  match w with
  | .command op arg =>
    { s with port := .command op arg :: s.port, dp := { s.dp with request := none } }
  | .selector ctx sel => { s with dp := { s.dp with request := some (ctx, sel) } }

end Sys2Proof.Machine
end

