-- ==== Sys2Proof/Machine/Step.lean ====
section
/-! DEFINITION. The step (R2, R60): one engine invocation in hand, or one host action, to its end. -/

namespace Sys2Proof.Machine

/-- One step of the machine. With nothing in hand and nothing pending the block is idle and keeps
all of its state (R230, R251, log entry 1). -/
def step (s : State) : Host.Outcome State Fault Refusal :=
  match s.fetch with
  | .idle => .next s
  | .run word s' => exec (decodeFetch word) s'
  | .loadDescriptor i d s' => hostLoadDescriptor i d s'
  | .fillBuffer j f s' => hostFillBuffer j f s'
  | .applyReset s' => hostReset s'

/-- `s` with the instruction of an opcode-table word where the step takes its next instruction
(log entries 1 and 10). -/
def State.withFetchWord (s : State) (nbits w : Nat) : State :=
  match fetchWordOfBits nbits w with
  | some word => s.present word
  | none => s

end Sys2Proof.Machine
end

