-- ==== Sys2Proof/Safety.lean ====
section
/-! DEFINITION. The terms claims use: the spec's predicates on the table in use (R119, U1), the
invariant of the machine, the field of a payload (R7, R120), and the event the spec gives each
descriptor of a PROCESS_FRAME (R140). -/

namespace Sys2Proof.Machine

/-- Every descriptor in use satisfies `DescOK`: the premise the spec puts on every claim (R119). -/
def State.TableOk (s : State) : Prop := ∀ i < s.dtLen.toNat, DescOK (s.descriptor i) = true

/-- `TableWF` (R119): every descriptor in use satisfies `DescOK` and `DescFit`. -/
def State.TableWF (s : State) : Prop :=
  ∀ i < s.dtLen.toNat, DescOK (s.descriptor i) = true ∧ DescFit (s.descriptor i) = true

/-- The invariant of the machine: both tables in canonical form; a ready component has its log
enabled (R25, R26), a ready encoder has a buffer (R201); only a table in use can be stale. -/
structure State.Inv (s : State) : Prop where
  dtWf : s.dt.wf Config.nMax = true
  lbWf : s.lb.wf Config.mMax = true
  decLog : s.decReady = true → s.decLogEn = true
  encLog : s.encReady = true → s.encLogEn = true
  encLen : s.encReady = true → s.lbLen ≠ 0
  stale : s.dtStale = true → s.dtLen ≠ 0

/-- `zext_16(P[e:s])` (R6, R120): the field of a payload, zero-extended to 16 bits. -/
def payloadField (p : Payload) (startBit endBit : BitPos) : Half :=
  (p.toBits.extractLsb endBit.toNat startBit.toNat).setWidth 16

/-- `i` is the first index below `n` that `p` accepts: what a linear scan stops at (R21). -/
def FirstIndex (p : Nat → Prop) (n i : Nat) : Prop := i < n ∧ p i ∧ ∀ k < i, ¬ p k

/-- The report of the decoder under its log enable (R221). -/
def decReport (s : State) (r : Report) : List Event :=
  if s.decLogEn = true then [.rpt .warning r] else []

/-- The report of the encoder under its log enable (R221). -/
def encReport (s : State) (r : Report) : List Event :=
  if s.encLogEn = true then [.rpt .warning r] else []

/-- The callback event of a descriptor for a raw value (R146, R147). -/
def specCallback (d : Descriptor) (raw : Half) : List Event :=
  match d.type with
  | .bool => [.cbBool d.name d.signalId (if raw = 0 then 0 else 1)]
  | .u8 => [.cbU8 d.name d.signalId (raw.setWidth 8)]
  | .u16 => [.cbU16 d.name d.signalId raw]
  | .unsupported => []

/-- The 2-byte window of a payload from byte `k`, little-endian (R51), as a number. -/
def windowNat (p : Payload) (k : Nat) : Nat :=
  (p[k]?.getD 0).toNat + 256 * (p[k + 1]?.getD 0).toNat

/-- The raw value of a descriptor as rules R112 and R113 give it, in plain numbers: the window
shifted right by `startBit mod 8`, its low `width` bits. -/
def specRaw (d : Descriptor) (p : Payload) : Nat :=
  let win := if d.type = .u16 then windowNat p (d.startBit.toNat / 8)
    else (p[d.startBit.toNat / 8]?.getD 0).toNat
  win / 2 ^ (d.startBit.toNat % 8) % 2 ^ (d.endBit.toNat - d.startBit.toNat + 1)

/-- What rule R140 emits for descriptor `i` of a ready decoder, with `DescOK` of the descriptor:
match, length, type, range, callback, in this order (R142 to R148, R224). -/
def specEntryEvents (s : State) (f : Frame) (i : Nat) : List Event :=
  let d := s.descriptor i
  if d.frameId ≠ f.id then []
  else if f.dlc.toNat * 8 < d.endBit.toNat then
    decReport s (.frameTooShort (BitVec.ofNat 16 i) f.dlc)
  else if d.type = .unsupported then decReport s (.unsupportedType (BitVec.ofNat 16 i))
  else if d.min.toNat ≤ specRaw d f.data ∧ specRaw d f.data ≤ d.max.toNat then
    if s.cbEn.getLsbD d.type.code.toNat = true then
      specCallback d (BitVec.ofNat 16 (specRaw d f.data))
    else []
  else decReport s (.outOfBounds (BitVec.ofNat 16 i) (BitVec.ofNat 16 (specRaw d f.data)))

/-- An instruction the host can present on its command port (R80, R86). -/
def isCommand : Instr → Bool
  | .initDec _ _ _ _ | .initEnc _ _ _ _ | .processFrame _ | .reserved3 _ => true
  | .sendBool _ _ | .sendU8 _ _ | .sendU16 _ _ | .reserved7 => true
  | .extract8 _ | .extract16 | .unsupportedDec | .pack8 _ | .pack16 | .unsupportedEnc => false

/-- The three sends as one: the entry point of a send (R80). -/
def sendInstr : EntryPoint → Name → Half → Instr
  | .bool, name, v => .sendBool name v
  | .u8, name, v => .sendU8 name v
  | .u16, name, v => .sendU16 name v

/-- The 16-bit value of a send: the low 1, 8 or 16 bits of its operand (R174). -/
def specSendValue : EntryPoint → Half → Half
  | .bool, v => BitVec.ofNat 16 (v.toNat % 2)
  | .u8, v => BitVec.ofNat 16 (v.toNat % 256)
  | .u16, v => v

/-- The byte of LB that a send of a name may store to: byte `b` of buffer `k` is in the window of the
first descriptor of the name, in the first live buffer of its frame (R171, R172, R176). -/
def SendStoresByte (s : State) (name : Name) (k b : Nat) : Prop :=
  ∃ i, FirstIndex (fun m => (s.descriptor m).name = name) s.dtLen.toNat i ∧
    FirstIndex (fun m => (s.buffer m).id = (s.descriptor i).frameId) s.lbLen.toNat k ∧
    (s.descriptor i).startBit.toNat / 8 ≤ b ∧
    b < (s.descriptor i).startBit.toNat / 8 + (if (s.descriptor i).type = .u16 then 2 else 1)

/-- `TypeOK(T, t)` under the state's policy (R175). -/
def State.TypeAccepted (s : State) (entry : EntryPoint) (t : TypeTag) : Prop :=
  (s.policy = .fixed ∧ t = entry.tag) ∨ (s.policy = .reference ∧ t = .u8)

end Sys2Proof.Machine
end

