-- ==== Sys2Proof/Certificates/Slice0/Obligations.lean ====
section
/-! DEFINITION. The statements for the provers, from the numbered rules of spec/. -/

open Sys2Proof Sys2Proof.Machine

/-! ## The step, decoding and encoding -/

/-- R2, R60, R93: an engine invocation in hand, else the host's oldest command, is decoded and run
as `exec` of the decoded instruction, on the state from which it has been taken. -/
def Obligations.StepRunsDecodedInstruction : Prop :=
  ∀ s : State,
    (∀ ctx sel, s.dp.request = some (ctx, sel) →
      step s = exec (decodeSelector ctx sel) { s with dp := { s.dp with request := none } }) ∧
    (∀ op arg rest, s.dp.request = none → s.port = .command op arg :: rest →
      step s = exec (decodeCommand op arg) { s with port := rest })

/-- R80, R93: a well-formed instruction placed where the step takes its next instruction, by its
words, is what the step runs, and nothing else of the state changes. -/
def Obligations.PresentedInstructionRuns : Prop :=
  ∀ (s : State) (i : Instr), wellFormed i = true →
    step (s.present (encode i)) = exec i { s with dp := { s.dp with request := none } }

/-- R80 to R84, R86, R88, R93: decoding the words of a well-formed instruction gives it back, with
every operand at every value. -/
def Obligations.DecodeEncodeAgree : Prop :=
  ∀ i : Instr, wellFormed i = true → decodeFetch (encode i) = i

/-- R80, R86: every command byte with every operand word decodes to a well-formed command, whose
encoding has the same command byte and decodes to the same command. -/
def Obligations.EveryCommandByteDecodes : Prop :=
  ∀ (op : Byte) (arg : ArgWord),
    wellFormed (decodeCommand op arg) = true ∧ isCommand (decodeCommand op arg) = true ∧
      ∃ arg', encode (decodeCommand op arg) = .command op arg' ∧
        decodeCommand op arg' = decodeCommand op arg

/-- R81 to R84, R86: operand bits above the ones a command's layout names are ignored. -/
def Obligations.OperandBitsAboveLayoutIgnored : Prop :=
  ∀ (op : Byte) (a b : ArgWord),
    (op = 0x00#8 → a.toNat % 2 ^ 21 = b.toNat % 2 ^ 21) →
    (op = 0x01#8 → a.toNat % 2 ^ 19 = b.toNat % 2 ^ 19) →
    (op = 0x02#8 → a.toNat % 2 ^ 100 = b.toNat % 2 ^ 100) →
    (op = 0x04#8 ∨ op = 0x05#8 ∨ op = 0x06#8 → a = b) →
    decodeCommand op a = decodeCommand op b

/-- R80 to R85, R93: words written out from the spec's encodings (95_test_vectors.md 2.7; the engine
rows of the opcode table) decode to the instructions they stand for. -/
def Obligations.WrittenWordsDecode : Prop :=
  decodeCommand 0x00 0x0000FF = .initDec true true 0b111 7 ∧
  decodeCommand 0x01 0x00017 = .initEnc true true true 2 ∧
  decodeCommand 0x02 0x0000030088000000064775FA0 =
    .processFrame { id := 0x300, dlc := 8, data := #v[0xA0, 0x5F, 0x77, 0x64, 0, 0, 0, 0x80] } ∧
  decodeCommand 0x04 0x000000000000000000000000726F6F440001 = .sendBool 0x726F6F44 1 ∧
  decodeCommand 0x05 0x00000000000000000000006465657053002A = .sendU8 0x6465657053 42 ∧
  decodeCommand 0x06 0x000000000000000000000000006D70520ABC = .sendU16 0x6D7052 0xABC ∧
  decodeCommand 0x03 0x1234 = .reserved3 0x03 ∧ decodeCommand 0x84 0 = .reserved3 0x84 ∧
  decodeCommand 0x07 0x1234 = .reserved7 ∧
  decodeSelector .decode 0b01 = .extract8 1 ∧ decodeSelector .decode 0b10 = .extract16 ∧
  decodeSelector .decode 0b11 = .unsupportedDec ∧
  decodeSelector .encode 0b00 = .pack8 0 ∧ decodeSelector .encode 0b10 = .pack16 ∧
  decodeSelector .encode 0b11 = .unsupportedEnc

/-- R87, R88: the record layouts lose nothing, in either direction. -/
def Obligations.RecordLayoutsRoundTrip : Prop :=
  (∀ f : Frame, Frame.ofBits f.toBits = f) ∧ (∀ b, (Frame.ofBits b).toBits = b) ∧
  (∀ d : Descriptor, Descriptor.ofBits d.toBits = d) ∧ ∀ b, (Descriptor.ofBits b).toBits = b

/-! ## Reserved codes and initialisation -/

/-- R86: a reserved command byte (3, 7, or bits 7..3 not 0) is ignored: run, it changes nothing, and
a step that takes it only takes it. -/
def Obligations.ReservedCommandsAreIgnored : Prop :=
  (∀ (op : Byte) (s : State), exec (.reserved3 op) s = .next s) ∧
  (∀ s : State, exec .reserved7 s = .next s) ∧
  ∀ (op : Byte) (arg : ArgWord) (s : State) (rest : List HostAction),
    (op = 3 ∨ op = 7 ∨ 8 ≤ op.toNat) → s.dp.request = none → s.port = .command op arg :: rest →
    step s = .next { s with port := rest }

/-- R200, R202: INIT_DEC writes its four fields from its operands, gives the result bit and emits
no event, in every state. -/
def Obligations.InitDecWritesItsFields : Prop :=
  ∀ (tbl log : Bool) (cb : BitVec 3) (len : Len) (s : State),
    ∃ t, exec (.initDec tbl log cb len) s = .next t ∧
      t.dtLen = (if tbl = true then len else 0) ∧ t.decLogEn = log ∧ t.cbEn = cb ∧
      t.decReady = (tbl && log) ∧ t.results = s.results ++ [tbl && log] ∧ t.out = s.out

/-- R201, R202: INIT_ENC writes its three fields from its operands, gives the result bit and emits
no event, in every state. -/
def Obligations.InitEncWritesItsFields : Prop :=
  ∀ (lb log tx : Bool) (len : Len) (s : State),
    ∃ t, exec (.initEnc lb log tx len) s = .next t ∧
      t.lbLen = (if lb = true then len else 0) ∧ t.encLogEn = log ∧
      (t.encReady = true ↔ lb = true ∧ len ≠ 0 ∧ log = true ∧ tx = true) ∧
      t.results = s.results ++ [t.encReady] ∧ t.out = s.out

/-- R200, R201, R204, and log entry 6 for `dtStale`: the frame of the two INIT commands. Each leaves
the other component's fields, both tables as read, the stream and everything else unchanged. -/
def Obligations.InitFrames : Prop :=
  (∀ (tbl log : Bool) (cb : BitVec 3) (len : Len) (s t : State),
    exec (.initDec tbl log cb len) s = .next t →
      t = { s with dtLen := t.dtLen, decLogEn := t.decLogEn, cbEn := t.cbEn,
                   decReady := t.decReady, dtStale := false, results := t.results } ∧
      (∀ i, t.descriptor i = s.descriptor i) ∧ ∀ j, t.buffer j = s.buffer j) ∧
  ∀ (lb log tx : Bool) (len : Len) (s t : State), exec (.initEnc lb log tx len) s = .next t →
    t = { s with lbLen := t.lbLen, encLogEn := t.encLogEn, encReady := t.encReady,
                 results := t.results } ∧
    (∀ i, t.descriptor i = s.descriptor i) ∧ ∀ j, t.buffer j = s.buffer j

/-- R203: an INIT writes its fields from its operands whatever the state was before; so a later one
of the same component replaces the whole configuration of that component. -/
def Obligations.LaterInitReplacesConfiguration : Prop :=
  (∀ (tbl log tbl' log' : Bool) (cb cb' : BitVec 3) (len len' : Len) (s u : State),
    exec (.initDec tbl log cb len) s = .next u →
    ∃ t v, exec (.initDec tbl' log' cb' len') u = .next t ∧
      exec (.initDec tbl' log' cb' len') s = .next v ∧
      t.decReady = v.decReady ∧ t.decLogEn = v.decLogEn ∧ t.cbEn = v.cbEn ∧ t.dtLen = v.dtLen) ∧
  ∀ (lb log tx lb' log' tx' : Bool) (len len' : Len) (s u : State),
    exec (.initEnc lb log tx len) s = .next u →
    ∃ t v, exec (.initEnc lb' log' tx' len') u = .next t ∧
      exec (.initEnc lb' log' tx' len') s = .next v ∧
      t.encReady = v.encReady ∧ t.encLogEn = v.encLogEn ∧ t.lbLen = v.lbLen

/-! ## The Codec Engine -/

/-- R24, R110: `MASK[w] = 2^w - 1` for `w` in 1..16, and no other entry. -/
def Obligations.MaskTableValues : Prop :=
  (∀ w : Nat, 1 ≤ w → w ≤ 16 → ∃ m, maskTable w = some m ∧ m.toNat = 2 ^ w - 1) ∧
  ∀ w : Int, w < 1 ∨ 16 < w → maskTable w = none

/-- R112: EXTRACT8 on the datapath: the byte at `startBit div 8`, shifted right by
`startBit mod 8`, its low `width` bits. -/
def Obligations.ExtractEightGivesField : Prop :=
  ∀ (b : BitVec 1) (s : State), windowOk 1 s.dp.startBit s.dp.endBit = true →
    ∃ t, exec (.extract8 b) s = .next t ∧ t = { s with dp := t.dp } ∧ t.dp.payload = s.dp.payload ∧
      t.dp.raw.toNat = (s.dp.payload[s.dp.startBit.toNat / 8]?.getD 0).toNat
        / 2 ^ (s.dp.startBit.toNat % 8) % 2 ^ (s.dp.endBit.toNat - s.dp.startBit.toNat + 1)

/-- R113: EXTRACT16 on the datapath: the little-endian 2-byte window at `startBit div 8`, shifted
right by `startBit mod 8`, its low `width` bits. -/
def Obligations.ExtractSixteenGivesField : Prop :=
  ∀ s : State, windowOk 2 s.dp.startBit s.dp.endBit = true →
    ∃ t, exec .extract16 s = .next t ∧ t = { s with dp := t.dp } ∧ t.dp.payload = s.dp.payload ∧
      t.dp.raw.toNat = windowNat s.dp.payload (s.dp.startBit.toNat / 8)
        / 2 ^ (s.dp.startBit.toNat % 8) % 2 ^ (s.dp.endBit.toNat - s.dp.startBit.toNat + 1)

/-- R114: PACK8 on the datapath: the target bits of the byte at `startBit div 8` are cleared, the
unmasked value shifted into place is ORed in, both truncated to 8 bits; the other seven bytes stay. -/
def Obligations.PackEightWritesWindow : Prop :=
  ∀ (b : BitVec 1) (s : State), windowOk 1 s.dp.startBit s.dp.endBit = true →
    ∃ t, exec (.pack8 b) s = .next t ∧ t = { s with dp := t.dp } ∧
      ∀ k, (hk : k < 8) → t.dp.payload[k] =
        if k = s.dp.startBit.toNat / 8 then
          (s.dp.payload[k] &&& ~~~ BitVec.ofNat 8
            ((2 ^ (s.dp.endBit.toNat - s.dp.startBit.toNat + 1) - 1)
              <<< (s.dp.startBit.toNat % 8)))
          ||| BitVec.ofNat 8 (s.dp.value.toNat <<< (s.dp.startBit.toNat % 8))
        else s.dp.payload[k]

/-- R115: PACK16 on the datapath: the same in the little-endian 2-byte window, truncated to 16 bits;
the other six bytes stay. -/
def Obligations.PackSixteenWritesWindow : Prop :=
  ∀ s : State, windowOk 2 s.dp.startBit s.dp.endBit = true →
    ∃ t, exec .pack16 s = .next t ∧ t = { s with dp := t.dp } ∧
      BitVec.ofNat 16 (windowNat t.dp.payload (s.dp.startBit.toNat / 8)) =
        (BitVec.ofNat 16 (windowNat s.dp.payload (s.dp.startBit.toNat / 8)) &&& ~~~ BitVec.ofNat 16
          ((2 ^ (s.dp.endBit.toNat - s.dp.startBit.toNat + 1) - 1)
            <<< (s.dp.startBit.toNat % 8)))
        ||| BitVec.ofNat 16 (s.dp.value.toNat <<< (s.dp.startBit.toNat % 8)) ∧
      ∀ k, (hk : k < 8) → k ≠ s.dp.startBit.toNat / 8 → k ≠ s.dp.startBit.toNat / 8 + 1 →
        t.dp.payload[k] = s.dp.payload[k]

/-- R111, R20: every engine operation latches the four values of the geometry. -/
def Obligations.EngineLatchesGeometry : Prop :=
  ∀ (i : Instr) (s t : State),
    (∃ b, i = .extract8 b) ∨ i = .extract16 ∨ (∃ b, i = .pack8 b) ∨ i = .pack16 →
    exec i s = .next t →
      t.dp.byteOffset.toNat = s.dp.startBit.toNat / 8 ∧
      t.dp.bitShift.toNat = s.dp.startBit.toNat % 8 ∧
      t.dp.width = (s.dp.endBit.toNat : Int) - s.dp.startBit.toNat + 1 ∧
      maskTable t.dp.width = some t.dp.mask

/-- R20, R112 to R115, R125: the frame of the four engine operations: they write the datapath's
results, an extract no payload and a pack no raw value, and nothing else of the state. -/
def Obligations.EngineFrame : Prop :=
  ∀ (i : Instr) (s t : State), exec i s = .next t →
    ((∃ b, i = .extract8 b) ∨ i = .extract16 →
      t = { s with dp := { s.dp with
        byteOffset := t.dp.byteOffset, bitShift := t.dp.bitShift, width := t.dp.width,
        mask := t.dp.mask, win := t.dp.win, raw := t.dp.raw } }) ∧
    ((∃ b, i = .pack8 b) ∨ i = .pack16 →
      t = { s with dp := { s.dp with
        byteOffset := t.dp.byteOffset, bitShift := t.dp.bitShift, width := t.dp.width,
        mask := t.dp.mask, win := t.dp.win, payload := t.dp.payload } })

/-- R55, R117, U1: an engine operation is refused exactly when the field in hand fails `DescOK` for
its window, and the refusal is named so. -/
def Obligations.EngineStopsExactlyWithoutDescOK : Prop :=
  ∀ (s : State),
    (∀ b, exec (.extract8 b) s = .refused .descriptorNotOk ↔
      windowOk 1 s.dp.startBit s.dp.endBit = false) ∧
    (exec .extract16 s = .refused .descriptorNotOk ↔
      windowOk 2 s.dp.startBit s.dp.endBit = false) ∧
    (∀ b, exec (.pack8 b) s = .refused .descriptorNotOk ↔
      windowOk 1 s.dp.startBit s.dp.endBit = false) ∧
    (exec .pack16 s = .refused .descriptorNotOk ↔
      windowOk 2 s.dp.startBit s.dp.endBit = false)

/-- R93, R144, R173: the unsupported-type rows perform no engine operation and report, each under
its component's log enable, for the descriptor in hand. -/
def Obligations.UnsupportedRowsReport : Prop :=
  ∀ s : State,
    exec .unsupportedDec s =
      .next { s with out := s.out ++ decReport s (.unsupportedType s.dp.scan) } ∧
    exec .unsupportedEnc s =
      .next { s with out := s.out ++ encReport s (.encReject s.dp.scan s.dp.value s.dp.entry) }

/-- R120: with `DescOK` and `DescFit` an extract gives `zext_16(P[e:s])`, so it depends on payload
bits `s` to `e` only, is below `2^w` and does not depend on the type. -/
def Obligations.ExtractReadsPayloadField : Prop :=
  ∀ s : State,
    (∀ b, windowOk 1 s.dp.startBit s.dp.endBit = true →
      windowFit 1 s.dp.startBit s.dp.endBit = true →
      ∃ t, exec (.extract8 b) s = .next t ∧
        t.dp.raw = payloadField s.dp.payload s.dp.startBit s.dp.endBit ∧
        t.dp.raw.toNat < 2 ^ (s.dp.endBit.toNat - s.dp.startBit.toNat + 1)) ∧
    (windowOk 2 s.dp.startBit s.dp.endBit = true →
      windowFit 2 s.dp.startBit s.dp.endBit = true →
      ∃ t, exec .extract16 s = .next t ∧
        t.dp.raw = payloadField s.dp.payload s.dp.startBit s.dp.endBit ∧
        t.dp.raw.toNat < 2 ^ (s.dp.endBit.toNat - s.dp.startBit.toNat + 1))

/-- R121, R123: with `DescOK`, `DescFit` and a value that fits, a pack writes the field and leaves
every other bit of the payload. -/
def Obligations.PackWritesPayloadField : Prop :=
  ∀ (s : State) (i : Instr) (n : Nat),
    ((∃ b, i = .pack8 b) ∧ n = 1) ∨ (i = .pack16 ∧ n = 2) →
    windowOk n s.dp.startBit s.dp.endBit = true → windowFit n s.dp.startBit s.dp.endBit = true →
    s.dp.value.toNat < 2 ^ (s.dp.endBit.toNat - s.dp.startBit.toNat + 1) →
    ∃ t, exec i s = .next t ∧
      ∀ k < 64, t.dp.payload.toBits.getLsbD k =
        if s.dp.startBit.toNat ≤ k ∧ k ≤ s.dp.endBit.toNat then
          s.dp.value.getLsbD (k - s.dp.startBit.toNat)
        else s.dp.payload.toBits.getLsbD k

/-- R122: the round-trip law: extracting what was packed gives the value back. -/
def Obligations.PackThenExtractRoundTrip : Prop :=
  ∀ (s : State) (i j : Instr) (n : Nat),
    ((∃ b c, i = .pack8 b ∧ j = .extract8 c) ∧ n = 1) ∨ (i = .pack16 ∧ j = .extract16 ∧ n = 2) →
    windowOk n s.dp.startBit s.dp.endBit = true → windowFit n s.dp.startBit s.dp.endBit = true →
    s.dp.value.toNat < 2 ^ (s.dp.endBit.toNat - s.dp.startBit.toNat + 1) →
    ∃ t u, exec i s = .next t ∧ exec j t = .next u ∧ u.dp.raw = s.dp.value

/-- R126, R127: without `DescFit` and for any value, bit by bit: outside the window nothing changes;
inside it the field's bits are cleared and every bit of the value from `startBit` up is ORed in. -/
def Obligations.PackBitsInAllCases : Prop :=
  ∀ (s : State) (i : Instr) (n : Nat),
    ((∃ b, i = .pack8 b) ∧ n = 1) ∨ (i = .pack16 ∧ n = 2) →
    windowOk n s.dp.startBit s.dp.endBit = true →
    ∃ t, exec i s = .next t ∧
      ∀ k < 64, t.dp.payload.toBits.getLsbD k =
        if s.dp.startBit.toNat / 8 ≤ k / 8 ∧ k / 8 < s.dp.startBit.toNat / 8 + n then
          ((s.dp.payload.toBits.getLsbD k &&
              !decide (s.dp.startBit.toNat ≤ k ∧ k ≤ s.dp.endBit.toNat)) ||
            (decide (s.dp.startBit.toNat ≤ k) &&
              s.dp.value.getLsbD (k - s.dp.startBit.toNat)))
        else s.dp.payload.toBits.getLsbD k

/-- R57: a pack is idempotent: packing the same value twice gives the payload of packing it once. -/
def Obligations.PackIsIdempotent : Prop :=
  ∀ (s t : State) (i : Instr), (∃ b, i = .pack8 b) ∨ i = .pack16 →
    exec i s = .next t → ∃ u, exec i t = .next u ∧ u.dp.payload = t.dp.payload

/-- R52: the same payload bits read through a 1-byte and a 2-byte window give the same raw value. -/
def Obligations.WindowSizesAgree : Prop :=
  ∀ (s : State) (b : BitVec 1), windowOk 1 s.dp.startBit s.dp.endBit = true →
    windowOk 2 s.dp.startBit s.dp.endBit = true → windowFit 1 s.dp.startBit s.dp.endBit = true →
    ∃ t u, exec (.extract8 b) s = .next t ∧ exec .extract16 s = .next u ∧ t.dp.raw = u.dp.raw

/-! ## The decoder -/

/-- R141: a decoder that is not ready only reports, under its log enable. -/
def Obligations.NotReadyDecoderOnlyReports : Prop :=
  ∀ (f : Frame) (s : State), s.decReady = false →
    exec (.processFrame f) s = .next { s with out := s.out ++ decReport s .decNotInit }

/-- R140 to R149: PROCESS_FRAME only appends to the stream: not ready, its one report; ready, for each
descriptor in use in table order, the event of the first of these that applies: no match, too short,
unsupported, valid, out of bounds. A ready decoder's table satisfies `DescOK` (R119) and has not been
rewritten under it (R63, R259, log entry 6). -/
def Obligations.ProcessFrameEmitsTableOrderEvents : Prop :=
  ∀ (f : Frame) (s : State), (s.decReady = true → s.dtStale = false ∧ s.TableOk) →
    exec (.processFrame f) s = .next { s with
      out := s.out ++ if s.decReady = true
        then (List.range s.dtLen.toNat).flatMap (specEntryEvents s f)
        else decReport s .decNotInit }

/-- R150: a frame that no descriptor in use matches produces nothing. `dtStale = false` leaves out a
table rewritten under the block, which R63 puts outside the spec (log entry 6). -/
def Obligations.UnmatchedFrameEmitsNothing : Prop :=
  ∀ (f : Frame) (s : State), s.decReady = true → s.dtStale = false →
    (∀ i < s.dtLen.toNat, (s.descriptor i).frameId ≠ f.id) → exec (.processFrame f) s = .next s

/-- R140, R151: the frame of PROCESS_FRAME: it changes nothing but the stream, to which it appends
at most one event per descriptor in use (or the one report); issued again it appends the same. -/
def Obligations.ProcessFrameOnlyAppendsEvents : Prop :=
  ∀ (f : Frame) (s t : State), exec (.processFrame f) s = .next t →
    ∃ es, t = { s with out := s.out ++ es } ∧
      es.length ≤ (if s.decReady = true then s.dtLen.toNat else 1) ∧
      (∀ g, Event.tx g ∉ es) ∧
      (∀ i, t.descriptor i = s.descriptor i) ∧ (∀ j, t.buffer j = s.buffer j) ∧
      exec (.processFrame f) t = .next { t with out := t.out ++ es }

/-- R143, R144, R149: a skipped descriptor does not affect its siblings: the events of one table
position stand between those of the positions below and above it. -/
def Obligations.SkippedDescriptorLeavesSiblings : Prop :=
  ∀ (f : Frame) (s : State) (i : Nat), s.decReady = true → s.dtStale = false → s.TableOk →
    i < s.dtLen.toNat → (s.descriptor i).frameId = f.id →
    (f.dlc.toNat * 8 < (s.descriptor i).endBit.toNat ∨ (s.descriptor i).type = .unsupported) →
    exec (.processFrame f) s = .next { s with
      out := s.out ++ (List.range i).flatMap (specEntryEvents s f) ++
        decReport s (if f.dlc.toNat * 8 < (s.descriptor i).endBit.toNat
          then .frameTooShort (BitVec.ofNat 16 i) f.dlc
          else .unsupportedType (BitVec.ofNat 16 i)) ++
        (List.range' (i + 1) (s.dtLen.toNat - (i + 1))).flatMap (specEntryEvents s f) }

/-- R140, R228, R181: the events of PROCESS_FRAME depend only on the decoder's control fields, the
table and the frame: two states that agree on those append the same events. -/
def Obligations.DecoderIgnoresEncoderState : Prop :=
  ∀ (f : Frame) (s t : State), s.decReady = t.decReady → s.decLogEn = t.decLogEn →
    s.cbEn = t.cbEn → s.dtLen = t.dtLen → s.dt = t.dt → s.dtStale = t.dtStale →
    ∀ es, exec (.processFrame f) s = .next { s with out := s.out ++ es } ↔
      exec (.processFrame f) t = .next { t with out := t.out ++ es }

/-- R55, R63, R117, U1, U9, log entries 6 and 12: exactly when PROCESS_FRAME is refused: a ready
decoder whose table the host rewrote, or whose scan invokes the engine without `DescOK`. -/
def Obligations.ProcessFrameStops : Prop :=
  ∀ (f : Frame) (s : State),
    (exec (.processFrame f) s = .refused .tableChangedInUse ↔
      s.decReady = true ∧ s.dtStale = true) ∧
    (exec (.processFrame f) s = .refused .descriptorNotOk ↔
      s.decReady = true ∧ s.dtStale = false ∧ ∃ i < s.dtLen.toNat,
        (s.descriptor i).frameId = f.id ∧ ¬ f.dlc.toNat * 8 < (s.descriptor i).endBit.toNat ∧
        DescOK (s.descriptor i) = false)

/-! ## The encoder -/

/-- R171: a name that no descriptor in use has is reported, and nothing else happens. -/
def Obligations.UnknownSignalIsReported : Prop :=
  ∀ (e : EntryPoint) (name : Name) (v : Half) (s : State), s.dtStale = false →
    (∀ i < s.dtLen.toNat, (s.descriptor i).name ≠ name) →
    exec (sendInstr e name v) s =
      .next { s with out := s.out ++ encReport s (.unknownSignal name) }

/-- R171, R172: with the first descriptor of the name found and no live buffer for its frame, the
missing buffer is reported, and nothing else happens. -/
def Obligations.MissingBufferIsReported : Prop :=
  ∀ (e : EntryPoint) (name : Name) (v : Half) (s : State) (i : Nat), s.dtStale = false →
    FirstIndex (fun k => (s.descriptor k).name = name) s.dtLen.toNat i →
    (∀ j < s.lbLen.toNat, (s.buffer j).id ≠ (s.descriptor i).frameId) →
    exec (sendInstr e name v) s =
      .next { s with out := s.out ++ encReport s (.noBuffer (BitVec.ofNat 16 i)) }

/-- R173 to R175: with both lookups done, a send that is not ready, of the wrong type or out of range
is rejected with its full context, and nothing else happens. -/
def Obligations.InvalidSendIsRejected : Prop :=
  ∀ (e : EntryPoint) (name : Name) (v : Half) (s : State) (i j : Nat), s.dtStale = false →
    FirstIndex (fun k => (s.descriptor k).name = name) s.dtLen.toNat i →
    FirstIndex (fun k => (s.buffer k).id = (s.descriptor i).frameId) s.lbLen.toNat j →
    ¬ (s.encReady = true ∧ s.TypeAccepted e (s.descriptor i).type ∧
      (s.descriptor i).min.toNat ≤ (specSendValue e v).toNat ∧
      (specSendValue e v).toNat ≤ (s.descriptor i).max.toNat) →
    exec (sendInstr e name v) s = .next { s with
      out := s.out ++ encReport s (.encReject (BitVec.ofNat 16 i) (specSendValue e v) e) }

/-- R64, R116, R176: a valid send packs in place, by the pack operation of the descriptor's type, and
then transmits the buffer as it is after the pack. The packed payload is the one the engine
operation leaves when it is run on the datapath with the descriptor's field. -/
def Obligations.ValidSendPacksAndTransmits : Prop :=
  ∀ (e : EntryPoint) (name : Name) (v : Half) (s : State) (i j : Nat), s.dtStale = false →
    FirstIndex (fun k => (s.descriptor k).name = name) s.dtLen.toNat i →
    FirstIndex (fun k => (s.buffer k).id = (s.descriptor i).frameId) s.lbLen.toNat j →
    s.encReady = true → s.TypeAccepted e (s.descriptor i).type →
    (s.descriptor i).min.toNat ≤ (specSendValue e v).toNat →
    (specSendValue e v).toNat ≤ (s.descriptor i).max.toNat → DescOK (s.descriptor i) = true →
    ∃ t u,
      exec (if (s.descriptor i).type = .u16 then .pack16 else .pack8 0)
        { s with dp := { s.dp with
          startBit := (s.descriptor i).startBit, endBit := (s.descriptor i).endBit,
          value := specSendValue e v, payload := (s.buffer j).data } } = .next u ∧
      exec (sendInstr e name v) s = .next t ∧
      t.buffer j = { s.buffer j with data := u.dp.payload } ∧
      (∀ k, k ≠ j → t.buffer k = s.buffer k) ∧
      t = { s with lb := t.lb, out := s.out ++ [.tx (t.buffer j)] }

/-- R27, R170, R176, R181: the frame of the three sends: nothing but LB and the stream changes; no
identifier and no dlc; and no byte of LB outside the window of the descriptor in the matched buffer. -/
def Obligations.SendFrame : Prop :=
  ∀ (e : EntryPoint) (name : Name) (v : Half) (s t : State),
    exec (sendInstr e name v) s = .next t →
      t = { s with lb := t.lb, out := t.out } ∧
      (∀ i, t.descriptor i = s.descriptor i) ∧
      ∀ k, (t.buffer k).id = (s.buffer k).id ∧ (t.buffer k).dlc = (s.buffer k).dlc ∧
        ∀ b, (hb : b < 8) → ¬ SendStoresByte s name k b →
          (t.buffer k).data[b] = (s.buffer k).data[b]

/-- R170, R221: with the encoder's log enabled a send appends exactly one event; with it disabled, at
most one, and that one is a `TX`. -/
def Obligations.SendAppendsOneEvent : Prop :=
  ∀ (e : EntryPoint) (name : Name) (v : Half) (s t : State),
    exec (sendInstr e name v) s = .next t →
      (s.encLogEn = true → ∃ ev, t.out = s.out ++ [ev]) ∧
      (s.encLogEn = false → t.out = s.out ∨ ∃ f, t.out = s.out ++ [.tx f])

/-- R60, R64: a `TX` event carries a live buffer in use exactly as it stands after the command. -/
def Obligations.TransmitCarriesTheBuffer : Prop :=
  ∀ (e : EntryPoint) (name : Name) (v : Half) (s t : State) (f : Frame),
    exec (sendInstr e name v) s = .next t → t.out = s.out ++ [.tx f] →
      ∃ j < t.lbLen.toNat, t.buffer j = f

/-- R175, R180: what a send can transmit under each policy: with `fixed` only a descriptor of the
entry point's own type, with `reference` only a UInt8 descriptor; never an unsupported type. -/
def Obligations.TransmitRespectsTypePolicy : Prop :=
  ∀ (e : EntryPoint) (name : Name) (v : Half) (s t : State) (f : Frame),
    exec (sendInstr e name v) s = .next t → t.out = s.out ++ [.tx f] →
      ∃ i, FirstIndex (fun k => (s.descriptor k).name = name) s.dtLen.toNat i ∧
        (s.policy = .fixed → (s.descriptor i).type = e.tag) ∧
        (s.policy = .reference → (s.descriptor i).type = .u8) ∧
        (s.descriptor i).type ≠ .unsupported

/-- R178: what a successful send guarantees: with `DescFit` and a value that fits, the buffer's
payload has the value in the descriptor's field and every other bit as before. -/
def Obligations.SuccessfulSendWritesTheField : Prop :=
  ∀ (e : EntryPoint) (name : Name) (v : Half) (s t : State) (f : Frame) (i : Nat),
    exec (sendInstr e name v) s = .next t → t.out = s.out ++ [.tx f] →
    FirstIndex (fun k => (s.descriptor k).name = name) s.dtLen.toNat i →
    DescFit (s.descriptor i) = true →
    (specSendValue e v).toNat <
      2 ^ ((s.descriptor i).endBit.toNat - (s.descriptor i).startBit.toNat + 1) →
    ∃ j, FirstIndex (fun k => (s.buffer k).id = (s.descriptor i).frameId) s.lbLen.toNat j ∧
      ∀ k < 64, (t.buffer j).data.toBits.getLsbD k =
        if (s.descriptor i).startBit.toNat ≤ k ∧ k ≤ (s.descriptor i).endBit.toNat then
          (specSendValue e v).getLsbD (k - (s.descriptor i).startBit.toNat)
        else (s.buffer j).data.toBits.getLsbD k

/-- R228: an encoder that is not ready never writes LB and never transmits. -/
def Obligations.NotReadyEncoderNeverTransmits : Prop :=
  ∀ (e : EntryPoint) (name : Name) (v : Half) (s t : State), s.encReady = false →
    exec (sendInstr e name v) s = .next t →
      ∃ es, t = { s with out := s.out ++ es } ∧ ∀ f, Event.tx f ∉ es

/-- R84, R174: the operand bits above the entry point's width are ignored: sends whose operands agree
on the low 1, 8 or 16 bits do the same. -/
def Obligations.SendIgnoresOperandBitsAboveWidth : Prop :=
  ∀ (name : Name) (v w : Half) (s : State),
    (v.toNat % 2 = w.toNat % 2 → exec (.sendBool name v) s = exec (.sendBool name w) s) ∧
    (v.toNat % 256 = w.toNat % 256 → exec (.sendU8 name v) s = exec (.sendU8 name w) s)

/-- R63, R117, U1, U9, log entries 6 and 12: exactly when a send is refused: the host rewrote the
table, or the send is valid and its descriptor fails `DescOK`. -/
def Obligations.SendStops : Prop :=
  ∀ (e : EntryPoint) (name : Name) (v : Half) (s : State),
    (exec (sendInstr e name v) s = .refused .tableChangedInUse ↔ s.dtStale = true) ∧
    (exec (sendInstr e name v) s = .refused .descriptorNotOk ↔
      s.dtStale = false ∧ ∃ i j,
        FirstIndex (fun k => (s.descriptor k).name = name) s.dtLen.toNat i ∧
        FirstIndex (fun k => (s.buffer k).id = (s.descriptor i).frameId) s.lbLen.toNat j ∧
        s.encReady = true ∧ s.TypeAccepted e (s.descriptor i).type ∧
        (s.descriptor i).min.toNat ≤ (specSendValue e v).toNat ∧
        (specSendValue e v).toNat ≤ (s.descriptor i).max.toNat ∧
        DescOK (s.descriptor i) = false)

/-! ## The whole machine -/

/-- R220: no instruction traps, in any state. -/
def Obligations.NoInstructionFaults : Prop :=
  ∀ (i : Instr) (s : State) (r : Fault), exec i s ≠ .fault r

/-- R119, R179, R220, R265: on a table whose descriptors in use satisfy `DescOK` and that the host has
not rewritten, every command completes. -/
def Obligations.EveryCommandCompletes : Prop :=
  ∀ (i : Instr) (s : State), isCommand i = true → s.TableOk → s.dtStale = false →
    ∃ t, exec i s = .next t

/-- R25, R26: only INIT_DEC writes the decoder's and the table's control fields, only INIT_ENC the
encoder's, and only they give a result. -/
def Obligations.OnlyInitWritesControlFields : Prop :=
  ∀ (i : Instr) (s t : State), exec i s = .next t →
    ((∀ tbl log cb len, i ≠ .initDec tbl log cb len) →
      t.decReady = s.decReady ∧ t.decLogEn = s.decLogEn ∧ t.cbEn = s.cbEn ∧ t.dtLen = s.dtLen) ∧
    ((∀ lb log tx len, i ≠ .initEnc lb log tx len) →
      t.encReady = s.encReady ∧ t.encLogEn = s.encLogEn ∧ t.lbLen = s.lbLen) ∧
    ((∀ tbl log cb len, i ≠ .initDec tbl log cb len) → (∀ lb log tx len, i ≠ .initEnc lb log tx len)
      → t.results = s.results)

/-- R22, R27, R63: no instruction writes DT, the policy, or the identifier or dlc of a live buffer. -/
def Obligations.BlockNeverWritesTableOrIdentifiers : Prop :=
  ∀ (i : Instr) (s t : State), exec i s = .next t →
    t.dt = s.dt ∧ t.policy = s.policy ∧ t.port = s.port ∧
      ∀ j, (t.buffer j).id = (s.buffer j).id ∧ (t.buffer j).dlc = (s.buffer j).dlc

/-- R32, R91: an instruction only appends to the output stream, and every report it appends has
severity WARNING. -/
def Obligations.StreamGrowsWithWarnings : Prop :=
  ∀ (i : Instr) (s t : State), exec i s = .next t →
    ∃ es, t.out = s.out ++ es ∧ ∀ sev r, Event.rpt sev r ∈ es → sev = .warning

/-- R225, R179: a condition of a send changes nothing but the stream: when a send appends a report,
every byte of LB and every field is as before. -/
def Obligations.ReportedSendChangesNothing : Prop :=
  ∀ (e : EntryPoint) (name : Name) (v : Half) (s t : State) (sev : Severity) (r : Report),
    exec (sendInstr e name v) s = .next t → t.out = s.out ++ [.rpt sev r] →
      t = { s with out := s.out ++ [.rpt sev r] }

/-- R33, R250: the values the spec gives for reset. -/
def Obligations.ResetValues : Prop :=
  State.reset.decReady = false ∧ State.reset.encReady = false ∧ State.reset.decLogEn = false ∧
  State.reset.encLogEn = false ∧ State.reset.cbEn = 0b000 ∧ State.reset.dtLen = 0 ∧
  State.reset.lbLen = 0 ∧ State.reset.out = []

/-- R250, R252: a reset between commands puts the control fields at their reset values and empties
the stream, and (log entry 9, DEDUCED) leaves DT and LB as they are. -/
def Obligations.ResetActionPutsResetValues : Prop :=
  ∀ (s : State) (rest : List HostAction), s.dp.request = none → s.port = .reset :: rest →
    ∃ t, step s = .next t ∧ t.decReady = false ∧ t.encReady = false ∧ t.decLogEn = false ∧
      t.encLogEn = false ∧ t.cbEn = 0b000 ∧ t.dtLen = 0 ∧ t.lbLen = 0 ∧ t.out = [] ∧
      (∀ i, t.descriptor i = s.descriptor i) ∧ (∀ j, t.buffer j = s.buffer j) ∧ t.port = rest

/-- R33, R251: with both components as after reset, any sequence of commands without an INIT changes
nothing and emits nothing. -/
def Obligations.SilentUntilInitialised : Prop :=
  ∀ (s : State) (cs : List (Byte × ArgWord)) (rest : List HostAction),
    s.decReady = false → s.decLogEn = false → s.encLogEn = false → s.dtLen = 0 →
    s.dtStale = false → s.dp.request = none →
    (∀ c ∈ cs, c.1 ≠ 0x00#8 ∧ c.1 ≠ 0x01#8) →
    s.port = cs.map (fun c => HostAction.command c.1 c.2) ++ rest →
    Host.Core.run Sys2Proof.core cs.length s = .next { s with port := rest }

/-- R27, R50, R60, R63, and log entries 5 and 6: the host's writes between commands: the entry
written reads back, every other entry and every other field stays; at the capacity there is no
entry. -/
def Obligations.HostWritesReadBack : Prop :=
  ∀ (s : State) (rest : List HostAction), s.dp.request = none →
    (∀ j f, s.port = .writeBuffer j f :: rest →
      (j.toNat < 65535 → ∃ t, step s = .next t ∧ t = { s with port := rest, lb := t.lb } ∧
        t.buffer j.toNat = f ∧ ∀ k, k ≠ j.toNat → t.buffer k = s.buffer k) ∧
      (j.toNat = 65535 → step s = .fault .noSuchEntry)) ∧
    (∀ i d, s.port = .writeDescriptor i d :: rest →
      (i.toNat < 65535 → ∃ t, step s = .next t ∧
        t = { s with port := rest, dt := t.dt, dtStale := t.dtStale } ∧
        (t.dtStale = true ↔ s.dtStale = true ∨ i.toNat < s.dtLen.toNat) ∧
        t.descriptor i.toNat = d ∧ ∀ k, k ≠ i.toNat → t.descriptor k = s.descriptor k) ∧
      (i.toNat = 65535 → step s = .fault .noSuchEntry))

/-- R251, R230, log entry 1: with nothing pending the block is idle and keeps all of its state. -/
def Obligations.IdleBlockKeepsItsState : Prop :=
  ∀ s : State, s.dp.request = none → s.port = [] → step s = .next s

/-- R25, R26, R33: the invariant of the machine holds after reset. -/
def Obligations.ResetMeetsInvariant : Prop := State.reset.Inv

/-- R25, R26, R50, R201: every step keeps the invariant: both tables in canonical form, a ready
component has its log enabled, a ready encoder has a buffer. -/
def Obligations.StepKeepsInvariant : Prop :=
  ∀ s t : State, s.Inv → step s = .next t → t.Inv
end

