-- ==== Sys2Proof/Laws/State.lean ====
section
/-! SUPPORT. One lemma per field of State per update, each true by unfolding: later proofs cite them
and never unfold a record update. -/

namespace Sys2Proof.Machine

variable (s : State)

/-! The fields after `emit` (R8, R32). -/

@[simp] theorem State.emit_policy (es : List Event) : (s.emit es).policy = s.policy := rfl
@[simp] theorem State.emit_decReady (es : List Event) : (s.emit es).decReady = s.decReady := rfl
@[simp] theorem State.emit_decLogEn (es : List Event) : (s.emit es).decLogEn = s.decLogEn := rfl
@[simp] theorem State.emit_cbEn (es : List Event) : (s.emit es).cbEn = s.cbEn := rfl
@[simp] theorem State.emit_dtLen (es : List Event) : (s.emit es).dtLen = s.dtLen := rfl
@[simp] theorem State.emit_encReady (es : List Event) : (s.emit es).encReady = s.encReady := rfl
@[simp] theorem State.emit_encLogEn (es : List Event) : (s.emit es).encLogEn = s.encLogEn := rfl
@[simp] theorem State.emit_lbLen (es : List Event) : (s.emit es).lbLen = s.lbLen := rfl
@[simp] theorem State.emit_dt (es : List Event) : (s.emit es).dt = s.dt := rfl
@[simp] theorem State.emit_lb (es : List Event) : (s.emit es).lb = s.lb := rfl
@[simp] theorem State.emit_dtStale (es : List Event) : (s.emit es).dtStale = s.dtStale := rfl
@[simp] theorem State.emit_port (es : List Event) : (s.emit es).port = s.port := rfl
@[simp] theorem State.emit_out (es : List Event) : (s.emit es).out = s.out ++ es := rfl
@[simp] theorem State.emit_results (es : List Event) : (s.emit es).results = s.results := rfl
@[simp] theorem State.emit_dp (es : List Event) : (s.emit es).dp = s.dp := rfl

/-! The fields after the result bit of an INIT (R202). -/

@[simp] theorem State.giveResult_policy (ok : Bool) : (s.giveResult ok).policy = s.policy := rfl
@[simp] theorem State.giveResult_decReady (ok : Bool) : (s.giveResult ok).decReady = s.decReady := rfl
@[simp] theorem State.giveResult_decLogEn (ok : Bool) : (s.giveResult ok).decLogEn = s.decLogEn := rfl
@[simp] theorem State.giveResult_cbEn (ok : Bool) : (s.giveResult ok).cbEn = s.cbEn := rfl
@[simp] theorem State.giveResult_dtLen (ok : Bool) : (s.giveResult ok).dtLen = s.dtLen := rfl
@[simp] theorem State.giveResult_encReady (ok : Bool) : (s.giveResult ok).encReady = s.encReady := rfl
@[simp] theorem State.giveResult_encLogEn (ok : Bool) : (s.giveResult ok).encLogEn = s.encLogEn := rfl
@[simp] theorem State.giveResult_lbLen (ok : Bool) : (s.giveResult ok).lbLen = s.lbLen := rfl
@[simp] theorem State.giveResult_dt (ok : Bool) : (s.giveResult ok).dt = s.dt := rfl
@[simp] theorem State.giveResult_lb (ok : Bool) : (s.giveResult ok).lb = s.lb := rfl
@[simp] theorem State.giveResult_dtStale (ok : Bool) : (s.giveResult ok).dtStale = s.dtStale := rfl
@[simp] theorem State.giveResult_port (ok : Bool) : (s.giveResult ok).port = s.port := rfl
@[simp] theorem State.giveResult_out (ok : Bool) : (s.giveResult ok).out = s.out := rfl
@[simp] theorem State.giveResult_results (ok : Bool) : (s.giveResult ok).results = s.results ++ [ok] := rfl
@[simp] theorem State.giveResult_dp (ok : Bool) : (s.giveResult ok).dp = s.dp := rfl

/-! The fields after a write of a live buffer's data (R27). -/

@[simp] theorem State.setBufferData_policy (j : Nat) (p : Payload) : (s.setBufferData j p).policy = s.policy := rfl
@[simp] theorem State.setBufferData_decReady (j : Nat) (p : Payload) : (s.setBufferData j p).decReady = s.decReady := rfl
@[simp] theorem State.setBufferData_decLogEn (j : Nat) (p : Payload) : (s.setBufferData j p).decLogEn = s.decLogEn := rfl
@[simp] theorem State.setBufferData_cbEn (j : Nat) (p : Payload) : (s.setBufferData j p).cbEn = s.cbEn := rfl
@[simp] theorem State.setBufferData_dtLen (j : Nat) (p : Payload) : (s.setBufferData j p).dtLen = s.dtLen := rfl
@[simp] theorem State.setBufferData_encReady (j : Nat) (p : Payload) : (s.setBufferData j p).encReady = s.encReady := rfl
@[simp] theorem State.setBufferData_encLogEn (j : Nat) (p : Payload) : (s.setBufferData j p).encLogEn = s.encLogEn := rfl
@[simp] theorem State.setBufferData_lbLen (j : Nat) (p : Payload) : (s.setBufferData j p).lbLen = s.lbLen := rfl
@[simp] theorem State.setBufferData_dt (j : Nat) (p : Payload) : (s.setBufferData j p).dt = s.dt := rfl
@[simp] theorem State.setBufferData_lb (j : Nat) (p : Payload) : (s.setBufferData j p).lb = s.lb.write j { s.buffer j with data := p } := rfl
@[simp] theorem State.setBufferData_dtStale (j : Nat) (p : Payload) : (s.setBufferData j p).dtStale = s.dtStale := rfl
@[simp] theorem State.setBufferData_port (j : Nat) (p : Payload) : (s.setBufferData j p).port = s.port := rfl
@[simp] theorem State.setBufferData_out (j : Nat) (p : Payload) : (s.setBufferData j p).out = s.out := rfl
@[simp] theorem State.setBufferData_results (j : Nat) (p : Payload) : (s.setBufferData j p).results = s.results := rfl
@[simp] theorem State.setBufferData_dp (j : Nat) (p : Payload) : (s.setBufferData j p).dp = s.dp := rfl

/-! The fields after taking a host action. -/

@[simp] theorem State.withPort_policy (rest : List HostAction) : (s.withPort rest).policy = s.policy := rfl
@[simp] theorem State.withPort_decReady (rest : List HostAction) : (s.withPort rest).decReady = s.decReady := rfl
@[simp] theorem State.withPort_decLogEn (rest : List HostAction) : (s.withPort rest).decLogEn = s.decLogEn := rfl
@[simp] theorem State.withPort_cbEn (rest : List HostAction) : (s.withPort rest).cbEn = s.cbEn := rfl
@[simp] theorem State.withPort_dtLen (rest : List HostAction) : (s.withPort rest).dtLen = s.dtLen := rfl
@[simp] theorem State.withPort_encReady (rest : List HostAction) : (s.withPort rest).encReady = s.encReady := rfl
@[simp] theorem State.withPort_encLogEn (rest : List HostAction) : (s.withPort rest).encLogEn = s.encLogEn := rfl
@[simp] theorem State.withPort_lbLen (rest : List HostAction) : (s.withPort rest).lbLen = s.lbLen := rfl
@[simp] theorem State.withPort_dt (rest : List HostAction) : (s.withPort rest).dt = s.dt := rfl
@[simp] theorem State.withPort_lb (rest : List HostAction) : (s.withPort rest).lb = s.lb := rfl
@[simp] theorem State.withPort_dtStale (rest : List HostAction) : (s.withPort rest).dtStale = s.dtStale := rfl
@[simp] theorem State.withPort_port (rest : List HostAction) : (s.withPort rest).port = rest := rfl
@[simp] theorem State.withPort_out (rest : List HostAction) : (s.withPort rest).out = s.out := rfl
@[simp] theorem State.withPort_results (rest : List HostAction) : (s.withPort rest).results = s.results := rfl
@[simp] theorem State.withPort_dp (rest : List HostAction) : (s.withPort rest).dp = s.dp := rfl

/-! The fields after taking the engine invocation in hand. -/

@[simp] theorem State.takeRequest_policy : s.takeRequest.policy = s.policy := rfl
@[simp] theorem State.takeRequest_decReady : s.takeRequest.decReady = s.decReady := rfl
@[simp] theorem State.takeRequest_decLogEn : s.takeRequest.decLogEn = s.decLogEn := rfl
@[simp] theorem State.takeRequest_cbEn : s.takeRequest.cbEn = s.cbEn := rfl
@[simp] theorem State.takeRequest_dtLen : s.takeRequest.dtLen = s.dtLen := rfl
@[simp] theorem State.takeRequest_encReady : s.takeRequest.encReady = s.encReady := rfl
@[simp] theorem State.takeRequest_encLogEn : s.takeRequest.encLogEn = s.encLogEn := rfl
@[simp] theorem State.takeRequest_lbLen : s.takeRequest.lbLen = s.lbLen := rfl
@[simp] theorem State.takeRequest_dt : s.takeRequest.dt = s.dt := rfl
@[simp] theorem State.takeRequest_lb : s.takeRequest.lb = s.lb := rfl
@[simp] theorem State.takeRequest_dtStale : s.takeRequest.dtStale = s.dtStale := rfl
@[simp] theorem State.takeRequest_port : s.takeRequest.port = s.port := rfl
@[simp] theorem State.takeRequest_out : s.takeRequest.out = s.out := rfl
@[simp] theorem State.takeRequest_results : s.takeRequest.results = s.results := rfl
@[simp] theorem State.takeRequest_dp : s.takeRequest.dp = { s.dp with request := none } := rfl

/-! `raise` is `emit` of the gated report (R221). -/

@[simp] theorem State.raiseDec_eq (r : Report) : s.raiseDec r = s.emit (raised s.decLogEn r) := rfl
@[simp] theorem State.raiseEnc_eq (r : Report) : s.raiseEnc r = s.emit (raised s.encLogEn r) := rfl

theorem State.emit_nil : s.emit [] = s := by simp [State.emit]

@[simp] theorem raised_true (r : Report) : raised true r = [.rpt .warning r] := rfl
@[simp] theorem raised_false (r : Report) : raised false r = [] := rfl

/-! The tables as read by the rules: only a write of their own changes them. -/

@[simp] theorem State.emit_descriptor (es : List Event) (i : Nat) :
    (s.emit es).descriptor i = s.descriptor i := rfl
@[simp] theorem State.emit_buffer (es : List Event) (j : Nat) :
    (s.emit es).buffer j = s.buffer j := rfl
@[simp] theorem State.giveResult_descriptor (ok : Bool) (i : Nat) :
    (s.giveResult ok).descriptor i = s.descriptor i := rfl
@[simp] theorem State.giveResult_buffer (ok : Bool) (j : Nat) :
    (s.giveResult ok).buffer j = s.buffer j := rfl
@[simp] theorem State.withPort_descriptor (rest : List HostAction) (i : Nat) :
    (s.withPort rest).descriptor i = s.descriptor i := rfl
@[simp] theorem State.withPort_buffer (rest : List HostAction) (j : Nat) :
    (s.withPort rest).buffer j = s.buffer j := rfl
@[simp] theorem State.setBufferData_descriptor (j : Nat) (p : Payload) (i : Nat) :
    (s.setBufferData j p).descriptor i = s.descriptor i := rfl

end Sys2Proof.Machine
end

