-- ==== Sys2Proof/Laws/Memory.lean ====
section
/-! SUPPORT. The laws of the tables: read after write, the canonical form, and that equal readings
mean equal data. -/

namespace Sys2Proof.Machine

variable {α : Type}

theorem Memory.find?_write_self (m : Memory α) (i : Nat) (a : α) :
    Memory.find? (Memory.write m i a) i = some a := by
  induction m with
  | nil => simp [Memory.write, Memory.find?]
  | cons c m ih =>
    obtain ⟨k, b⟩ := c
    unfold Memory.write
    split
    · simp [Memory.find?]
    · split
      · simp [Memory.find?]
      · simp only [Memory.find?, ih]
        rw [if_neg (by omega)]

theorem Memory.find?_write_of_ne (m : Memory α) {i j : Nat} (a : α) (h : j ≠ i) :
    Memory.find? (Memory.write m i a) j = Memory.find? m j := by
  induction m with
  | nil => simp [Memory.write, Memory.find?, h.symm]
  | cons c m ih =>
    obtain ⟨k, b⟩ := c
    unfold Memory.write
    split
    · simp [Memory.find?, h.symm]
    · split
      · rename_i hik
        subst hik
        simp [Memory.find?, h.symm]
      · simp [Memory.find?, ih]

/-- A read after a write gives the value written there, and elsewhere what stood before. -/
theorem Memory.find?_write (m : Memory α) (i j : Nat) (a : α) :
    Memory.find? (Memory.write m i a) j = if j = i then some a else Memory.find? m j := by
  split
  · rename_i h; rw [h, Memory.find?_write_self]
  · rename_i h; exact Memory.find?_write_of_ne m a h

theorem Memory.wfFrom_write {cap : Nat} (m : Memory α) {lo i : Nat} (a : α)
    (hm : Memory.wfFrom cap lo m = true) (hlo : lo ≤ i) (hi : i < cap) :
    Memory.wfFrom cap lo (Memory.write m i a) = true := by
  induction m generalizing lo with
  | nil => simp [Memory.write, Memory.wfFrom, hlo, hi]
  | cons c m ih =>
    obtain ⟨k, b⟩ := c
    simp only [Memory.wfFrom, Bool.and_eq_true, decide_eq_true_eq] at hm
    unfold Memory.write
    split
    · rename_i hik
      simp [Memory.wfFrom, hm.1, hm.2, hlo, hi, Nat.succ_le_of_lt hik]
    · split
      · rename_i hik
        subst hik
        simp [Memory.wfFrom, hm.1, hm.2]
      · simp only [Memory.wfFrom, Bool.and_eq_true, decide_eq_true_eq]
        exact ⟨hm.1, ih hm.2 (by omega)⟩

/-- A write below the capacity keeps the canonical form. -/
theorem Memory.wf_write {cap : Nat} (m : Memory α) {i : Nat} (a : α) (hm : m.wf cap = true)
    (hi : i < cap) : Memory.wf cap (Memory.write m i a) = true :=
  Memory.wfFrom_write m a hm (Nat.zero_le i) hi

theorem Memory.find?_of_lt {cap : Nat} (m : Memory α) {lo i : Nat}
    (hm : Memory.wfFrom cap lo m = true) (h : i < lo) : Memory.find? m i = none := by
  induction m generalizing lo with
  | nil => rfl
  | cons c m ih =>
    obtain ⟨k, b⟩ := c
    simp only [Memory.wfFrom, Bool.and_eq_true, decide_eq_true_eq] at hm
    simp only [Memory.find?]
    rw [if_neg (by omega)]
    exact ih hm.2 (by omega)

theorem Memory.ext_of_wfFrom {cap : Nat} (m n : Memory α) {lo : Nat}
    (hm : Memory.wfFrom cap lo m = true) (hn : Memory.wfFrom cap lo n = true)
    (h : ∀ i, Memory.find? m i = Memory.find? n i) : m = n := by
  induction m generalizing n lo with
  | nil =>
    cases n with
    | nil => rfl
    | cons c n => have := h c.1; simp [Memory.find?] at this
  | cons c m ih =>
    obtain ⟨k, a⟩ := c
    cases n with
    | nil => have := h k; simp [Memory.find?] at this
    | cons e n =>
      obtain ⟨l, b⟩ := e
      simp only [Memory.wfFrom, Bool.and_eq_true, decide_eq_true_eq] at hm hn
      have hkl : k = l := by
        rcases Nat.lt_trichotomy k l with hlt | heq | hgt
        · have := h k
          simp only [Memory.find?, if_true, if_neg (Nat.ne_of_gt hlt)] at this
          rw [Memory.find?_of_lt n hn.2 (by omega)] at this
          cases this
        · exact heq
        · have := h l
          simp only [Memory.find?, if_true, if_neg (Nat.ne_of_gt hgt)] at this
          rw [Memory.find?_of_lt m hm.2 (by omega)] at this
          cases this
      subst hkl
      have hab : a = b := by have := h k; simpa [Memory.find?] using this
      subst hab
      rw [ih n hm.2 hn.2 fun i => ?_]
      by_cases hik : i ≤ k
      · rw [Memory.find?_of_lt m hm.2 (by omega), Memory.find?_of_lt n hn.2 (by omega)]
      · have := h i
        simpa [Memory.find?, show ¬ k = i by omega] using this

/-- Two tables in canonical form that read the same are the same data. -/
theorem Memory.ext_of_wf {cap : Nat} {m n : Memory α} (hm : m.wf cap = true)
    (hn : n.wf cap = true) (h : ∀ i, m.find? i = n.find? i) : m = n :=
  Memory.ext_of_wfFrom m n hm hn h

/-- What a live buffer reads as after its data are written: the others are as before (R27). -/
theorem State.setBufferData_buffer (s : State) (j k : Nat) (p : Payload) :
    (s.setBufferData j p).buffer k =
      if k = j then { s.buffer j with data := p } else s.buffer k := by
  unfold State.buffer State.setBufferData
  simp only [Memory.find?_write]
  split <;> simp [State.buffer]

@[simp] theorem State.setBufferData_buffer_self (s : State) (j : Nat) (p : Payload) :
    (s.setBufferData j p).buffer j = { s.buffer j with data := p } := by
  rw [State.setBufferData_buffer, if_pos rfl]

end Sys2Proof.Machine
end

