-- ==== Sys2Proof/Laws/Codec.lean ====
section
/-! SUPPORT. What the engine's operations do, once each: the mask table, the geometry, the payload
as bits, when a window exists (`DescOK`, R117), and the bits of an extracted or packed window. -/

namespace Sys2Proof.Machine

/-! The mask table and the geometry. -/

theorem maskTable_of_mem {w : Int} (h1 : 1 ≤ w) (h2 : w ≤ 16) :
    maskTable w = some (BitVec.ofNat 16 (2 ^ w.toNat - 1)) := by
  unfold maskTable; rw [if_pos ⟨h1, h2⟩]

theorem maskTable_eq_none {w : Int} (h : ¬ (1 ≤ w ∧ w ≤ 16)) : maskTable w = none := by
  unfold maskTable; rw [if_neg h]

/-! `DescOK` and `DescFit` of a window in natural numbers. -/

theorem windowOk_iff {n : Nat} {sb eb : BitPos} :
    windowOk n sb eb = true ↔
      sb.toNat ≤ eb.toNat ∧ eb.toNat < sb.toNat + 16 ∧ sb.toNat / 8 + n ≤ 8 := by
  simp only [windowOk, widthOk, Bool.and_eq_true, decide_eq_true_eq]
  unfold fieldWidth
  omega

theorem windowFit_iff {n : Nat} {sb eb : BitPos} :
    windowFit n sb eb = true ↔ sb.toNat % 8 + eb.toNat + 1 ≤ 8 * n + sb.toNat := by
  simp only [windowFit, decide_eq_true_eq]
  unfold fieldWidth
  omega

theorem fieldWidth_toNat {sb eb : BitPos} (h : sb.toNat ≤ eb.toNat) :
    (fieldWidth sb eb).toNat = eb.toNat - sb.toNat + 1 := by
  unfold fieldWidth; omega

/-- The geometry of a field whose width the mask table has (R111). -/
def fieldGeometry (startBit endBit : BitPos) : Geometry where
  byteOffset := startBit.toNat / 8
  bitShift := startBit.toNat % 8
  width := fieldWidth startBit endBit
  mask := BitVec.ofNat 16 (2 ^ (fieldWidth startBit endBit).toNat - 1)

theorem geometry_of_widthOk {sb eb : BitPos} (h : widthOk sb eb = true) :
    geometry sb eb = some (fieldGeometry sb eb) := by
  simp only [widthOk, decide_eq_true_eq] at h
  have := maskTable_of_mem h.1 h.2
  unfold fieldWidth at this
  simp only [geometry, this]
  rfl

theorem geometry_of_not_widthOk {sb eb : BitPos} (h : widthOk sb eb = false) :
    geometry sb eb = none := by
  simp only [widthOk, decide_eq_false_iff_not] at h
  have := maskTable_eq_none h
  unfold fieldWidth at this
  simp only [geometry, this]

/-! Payload access. -/

theorem memRead8_of_lt (p : Payload) {k : Nat} (h : k < 8) : memRead8 p k = some p[k] := by
  simp [memRead8, h]

theorem memRead8_eq_none (p : Payload) {k : Nat} (h : 8 ≤ k) : memRead8 p k = none := by
  simp [memRead8]; omega

theorem memRead16_of_lt (p : Payload) {k : Nat} (h : k + 1 < 8) :
    memRead16 p k = some (p[k + 1] ++ p[k]) := by
  have hk : k < 8 := by omega
  simp [memRead16, h, hk]

theorem memRead16_eq_none (p : Payload) {k : Nat} (h : 8 ≤ k + 1) : memRead16 p k = none := by
  unfold memRead16
  have : p[k + 1]? = none := by simp; omega
  rw [this]
  split <;> simp_all

/-- A 1-byte write changes its own byte and no other (R114). -/
theorem memWrite8_getElem (p : Payload) (k : Nat) (v : Byte) {i : Nat} (hi : i < 8) :
    (memWrite8 p k v)[i] = if k = i then v else p[i] := by
  simp [memWrite8, Vector.getElem_setIfInBounds]

/-- A 2-byte write changes its own two bytes and no other (R115). -/
theorem memWrite16_getElem (p : Payload) (k : Nat) (v : Half) {i : Nat} (hi : i < 8) :
    (memWrite16 p k v)[i] =
      if k + 1 = i then v.extractLsb' 8 8 else if k = i then v.extractLsb' 0 8 else p[i] := by
  simp [memWrite16, Vector.getElem_setIfInBounds]

/-! When a window exists: exactly when `DescOK` holds for its size (R117). -/

theorem windowOk_one {sb eb : BitPos} (h : windowOk 1 sb eb = true) : sb.toNat / 8 < 8 := by
  simp only [windowOk, Bool.and_eq_true, decide_eq_true_eq] at h
  omega

theorem windowOk_two {sb eb : BitPos} (h : windowOk 2 sb eb = true) : sb.toNat / 8 + 1 < 8 := by
  simp only [windowOk, Bool.and_eq_true, decide_eq_true_eq] at h
  omega

theorem window8_of_ok {sb eb : BitPos} (p : Payload) (h : windowOk 1 sb eb = true) :
    window8 sb eb p = some (fieldGeometry sb eb, p[sb.toNat / 8]'(windowOk_one h)) := by
  have hk := windowOk_one h
  simp only [windowOk, Bool.and_eq_true, decide_eq_true_eq] at h
  simp only [window8, geometry_of_widthOk h.1]
  change (memRead8 p (sb.toNat / 8)).map _ = _
  rw [memRead8_of_lt p hk]; rfl

theorem window8_of_not_ok {sb eb : BitPos} (p : Payload) (h : windowOk 1 sb eb = false) :
    window8 sb eb p = none := by
  unfold window8
  by_cases hw : widthOk sb eb = true
  · simp only [geometry_of_widthOk hw]
    change (memRead8 p (sb.toNat / 8)).map _ = _
    simp only [windowOk, hw, Bool.true_and, decide_eq_false_iff_not] at h
    rw [memRead8_eq_none p (by omega)]; rfl
  · rw [geometry_of_not_widthOk (by simpa using hw)]

theorem window16_of_ok {sb eb : BitPos} (p : Payload) (h : windowOk 2 sb eb = true) :
    window16 sb eb p = some (fieldGeometry sb eb,
      p[sb.toNat / 8 + 1]'(windowOk_two h) ++
        p[sb.toNat / 8]'(Nat.lt_of_succ_lt (windowOk_two h))) := by
  have hk := windowOk_two h
  simp only [windowOk, Bool.and_eq_true, decide_eq_true_eq] at h
  simp only [window16, geometry_of_widthOk h.1]
  change (memRead16 p (sb.toNat / 8)).map _ = _
  rw [memRead16_of_lt p hk]; rfl

theorem window16_of_not_ok {sb eb : BitPos} (p : Payload) (h : windowOk 2 sb eb = false) :
    window16 sb eb p = none := by
  unfold window16
  by_cases hw : widthOk sb eb = true
  · simp only [geometry_of_widthOk hw]
    change (memRead16 p (sb.toNat / 8)).map _ = _
    simp only [windowOk, hw, Bool.true_and, decide_eq_false_iff_not] at h
    rw [memRead16_eq_none p (by omega)]; rfl
  · rw [geometry_of_not_widthOk (by simpa using hw)]

theorem extract8_isSome (sb eb : BitPos) (p : Payload) :
    (extract8 sb eb p).isSome = windowOk 1 sb eb := by
  cases h : windowOk 1 sb eb
  · simp [extract8, window8_of_not_ok p h]
  · simp [extract8, window8_of_ok p h]

theorem extract16_isSome (sb eb : BitPos) (p : Payload) :
    (extract16 sb eb p).isSome = windowOk 2 sb eb := by
  cases h : windowOk 2 sb eb
  · simp [extract16, window16_of_not_ok p h]
  · simp [extract16, window16_of_ok p h]

theorem pack8_isSome (sb eb : BitPos) (v : Half) (p : Payload) :
    (pack8 sb eb v p).isSome = windowOk 1 sb eb := by
  cases h : windowOk 1 sb eb
  · simp [pack8, window8_of_not_ok p h]
  · simp [pack8, window8_of_ok p h]

theorem pack16_isSome (sb eb : BitPos) (v : Half) (p : Payload) :
    (pack16 sb eb v p).isSome = windowOk 2 sb eb := by
  cases h : windowOk 2 sb eb
  · simp [pack16, window16_of_not_ok p h]
  · simp [pack16, window16_of_ok p h]

/-- With a supported type the engine has a result exactly when `DescOK` holds (R117). -/
theorem extractFor_isSome {d : Descriptor} (p : Payload) (h : d.type ≠ .unsupported) :
    (extractFor d p).isSome = DescOK d := by
  unfold extractFor DescOK
  cases ht : d.type <;>
    simp_all [TypeTag.windowBytes, extract8_isSome, extract16_isSome]

theorem packFor_isSome {d : Descriptor} (v : Half) (p : Payload) (h : d.type ≠ .unsupported) :
    (packFor d v p).isSome = DescOK d := by
  unfold packFor DescOK
  cases ht : d.type <;>
    simp_all [TypeTag.windowBytes, pack8_isSome, pack16_isSome]

/-- The byte offset of a field, where it has a geometry (R111). -/
theorem geometry_byteOffset {sb eb : BitPos} {g : Geometry} (h : geometry sb eb = some g) :
    g.byteOffset = sb.toNat / 8 := by
  unfold geometry at h
  dsimp only at h
  split at h
  · cases h
  · cases h; rfl

/-- A pack writes the bytes of its window only (R114, R115, R123). -/
theorem packFor_getElem {d : Descriptor} {v : Half} {p data : Payload}
    (h : packFor d v p = some data) {b : Nat} (hb : b < 8)
    (hout : ¬ (d.startBit.toNat / 8 ≤ b ∧
      b < d.startBit.toNat / 8 + (if d.type = .u16 then 2 else 1))) : data[b] = p[b] := by
  unfold packFor at h
  split at h
  · rename_i ht
    rw [if_pos ht] at hout
    unfold pack16 window16 at h
    split at h
    · cases h
    rename_i g hg
    simp only [Option.map_map, Option.map_eq_some_iff] at h
    obtain ⟨win, _, rfl⟩ := h
    have := geometry_byteOffset hg
    simp only [Function.comp_apply, memWrite16_getElem _ _ _ hb]
    rw [if_neg (by omega), if_neg (by omega)]
  · rename_i ht
    rw [if_neg ht] at hout
    unfold pack8 window8 at h
    split at h
    · cases h
    rename_i g hg
    simp only [Option.map_map, Option.map_eq_some_iff] at h
    obtain ⟨win, _, rfl⟩ := h
    have := geometry_byteOffset hg
    simp only [Function.comp_apply, memWrite8_getElem _ _ _ hb]
    rw [if_neg (by omega)]

/-! The bits of the pieces. -/

/-- Bit `b` of a payload is bit `b mod 8` of byte `b div 8` (R7). -/
theorem Payload.getLsbD_toBits (p : Payload) {b : Nat} (h : b < 64)
    (hk : b / 8 < 8 := by omega) : (Payload.toBits p).getLsbD b = p[b / 8].getLsbD (b % 8) := by
  unfold Payload.toBits
  obtain ⟨k, r, hr, rfl⟩ : ∃ k r, r < 8 ∧ b = 8 * k + r := ⟨b / 8, b % 8, by omega, by omega⟩
  have hk8 : (8 * k + r) / 8 = k := by omega
  have hr8 : (8 * k + r) % 8 = r := by omega
  simp only [hk8, hr8, BitVec.getLsbD_append]
  have : k < 8 := by omega
  rcases k with _ | _ | _ | _ | _ | _ | _ | _ | k
  all_goals first | omega | skip
  all_goals simp
  all_goals repeat' (first | rw [if_pos (by omega)] | rw [if_neg (by omega)])
  all_goals (congr 1; try omega)

theorem getLsbD_shlTrunc (n : Nat) (v : Half) (k i : Nat) :
    (shlTrunc n v k).getLsbD i = (decide (i < n) && (decide (k ≤ i) && v.getLsbD (i - k))) := by
  simp only [shlTrunc, BitVec.getLsbD_ofNat, Nat.testBit_shiftLeft, BitVec.testBit_toNat, ge_iff_le]

/-- The mask of a field of `w` bits has its low `w` bits set (R110). -/
theorem getLsbD_fieldMask (sb eb : BitPos) (i : Nat) :
    (fieldGeometry sb eb).mask.getLsbD i =
      (decide (i < 16) && decide (i < (fieldWidth sb eb).toNat)) := by
  simp only [fieldGeometry, BitVec.getLsbD_ofNat, Nat.testBit_two_pow_sub_one]

theorem getLsbD_field8 (g : Geometry) (win : Byte) (i : Nat) :
    (field8 g win).getLsbD i =
      (decide (i < 16) && win.getLsbD (g.bitShift + i) && g.mask.getLsbD i) := by
  simp only [field8, BitVec.getLsbD_and, BitVec.getLsbD_setWidth, BitVec.getLsbD_ushiftRight]

theorem getLsbD_field16 (g : Geometry) (win : Half) (i : Nat) :
    (field16 g win).getLsbD i = (win.getLsbD (g.bitShift + i) && g.mask.getLsbD i) := by
  simp [field16]

end Sys2Proof.Machine
end

