-- ==== Sys2Proof/Laws/Decode.lean ====
section
/-! SUPPORT. The laws of the field layouts: a field cut out of a concatenation, the presence
operands, the payload as bits and back, and what each command byte decodes by. -/

namespace Sys2Proof

open Sys2Proof.Machine

/-- A field above the low part of a concatenation is a field of the high part. -/
theorem extractLsb'_append_high {m n : Nat} (x : BitVec m) (y : BitVec n) {s l : Nat} (k : Nat)
    (h : s = n + k) : (x ++ y).extractLsb' s l = x.extractLsb' k l := by
  subst h
  apply BitVec.eq_of_getLsbD_eq; intro j hj
  simp only [BitVec.getLsbD_extractLsb', BitVec.getLsbD_append]
  rw [if_neg (by omega)]; congr 2; omega

/-- A field inside the low part of a concatenation is a field of the low part. -/
theorem extractLsb'_append_low {m n : Nat} (x : BitVec m) (y : BitVec n) {s l : Nat}
    (h : s + l ≤ n) : (x ++ y).extractLsb' s l = y.extractLsb' s l := by
  apply BitVec.eq_of_getLsbD_eq; intro j hj
  simp only [BitVec.getLsbD_extractLsb', BitVec.getLsbD_append]
  rw [if_pos (by omega)]

theorem extractLsb'_whole {n : Nat} (x : BitVec n) : x.extractLsb' 0 n = x := by
  apply BitVec.eq_of_getLsbD_eq; intro j hj; simp [hj]

/-- Widening an operand word does not change the fields its layout names. -/
theorem extractLsb'_setWidth {n m : Nat} (x : BitVec n) {s l : Nat} (h : s + l ≤ m) :
    (x.setWidth m).extractLsb' s l = x.extractLsb' s l := by
  apply BitVec.eq_of_getLsbD_eq; intro j hj
  simp only [BitVec.getLsbD_extractLsb', BitVec.getLsbD_setWidth, hj,
    show s + j < m by omega, decide_true, Bool.true_and]

theorem getLsbD_setWidth_lt {n m : Nat} (x : BitVec n) {k : Nat} (h : k < m) :
    (x.setWidth m).getLsbD k = x.getLsbD k := by
  rw [BitVec.getLsbD_setWidth]; simp [h]

theorem getLsbD_append_presenceBit {m : Nat} (x : BitVec m) (b : Bool) :
    (x ++ presenceBit b).getLsbD 0 = b := by
  rw [BitVec.getLsbD_append, if_pos (by omega)]
  cases b <;> rfl

theorem getLsbD_append_presenceBit_succ {m : Nat} (x : BitVec m) (b : Bool) (k : Nat) :
    (x ++ presenceBit b).getLsbD (k + 1) = x.getLsbD k := by
  rw [BitVec.getLsbD_append, if_neg (by omega)]; congr

/-- The payload of the bits of a payload (R7). -/
theorem Payload.ofBits_toBits (p : Payload) : Payload.ofBits (Payload.toBits p) = p := by
  apply Vector.ext
  intro k hk
  apply BitVec.eq_of_getLsbD_eq
  intro j hj
  have h1 : (8 * k + j) / 8 = k := by omega
  have h2 : (8 * k + j) % 8 = j := by omega
  have key : (Payload.toBits p).getLsbD (8 * k + j) = p[k].getLsbD j := by
    rw [Payload.getLsbD_toBits p (by omega)]; simp only [h1, h2]
  rw [← key]
  unfold Payload.ofBits
  rcases k with _ | _ | _ | _ | _ | _ | _ | _ | k
  all_goals first | omega | simp [hj]

/-- The bits of the payload of 64 bits (R7). -/
theorem Payload.toBits_ofBits (b : BitVec 64) : Payload.toBits (Payload.ofBits b) = b := by
  apply BitVec.eq_of_getLsbD_eq
  intro j hj
  rw [Payload.getLsbD_toBits _ hj]
  obtain ⟨k, r, hr, rfl⟩ : ∃ k r, r < 8 ∧ j = 8 * k + r := ⟨j / 8, j % 8, by omega, by omega⟩
  have h1 : (8 * k + r) / 8 = k := by omega
  have h2 : (8 * k + r) % 8 = r := by omega
  simp only [h1, h2]
  unfold Payload.ofBits
  rcases k with _ | _ | _ | _ | _ | _ | _ | _ | k
  all_goals first | omega | simp [hr]

theorem TypeTag.ofCode_code (t : TypeTag) : TypeTag.ofCode t.code = t := by cases t <;> decide

theorem TypeTag.code_ofCode (c : BitVec 2) : (TypeTag.ofCode c).code = c := by revert c; decide

theorem argName_sendArg (name : Name) (v : Half) : argName (sendArg name v) = name := by
  unfold argName sendArg
  rw [extractLsb'_append_high _ _ 0 rfl, extractLsb'_whole]

theorem argValue_sendArg (name : Name) (v : Half) : argValue (sendArg name v) = v := by
  unfold argValue sendArg
  rw [extractLsb'_append_low _ _ (by omega), extractLsb'_whole]

/-! What each command byte decodes by (R80). -/

theorem decodeCommand_00 (a : ArgWord) : decodeCommand 0x00#8 a = decodeInitDec a := rfl
theorem decodeCommand_01 (a : ArgWord) : decodeCommand 0x01#8 a = decodeInitEnc a := rfl
theorem decodeCommand_02 (a : ArgWord) : decodeCommand 0x02#8 a = decodeProcessFrame a := rfl
theorem decodeCommand_04 (a : ArgWord) :
    decodeCommand 0x04#8 a = .sendBool (argName a) (argValue a) := rfl
theorem decodeCommand_05 (a : ArgWord) :
    decodeCommand 0x05#8 a = .sendU8 (argName a) (argValue a) := rfl
theorem decodeCommand_06 (a : ArgWord) :
    decodeCommand 0x06#8 a = .sendU16 (argName a) (argValue a) := rfl
theorem decodeCommand_07 (a : ArgWord) : decodeCommand 0x07#8 a = .reserved7 := rfl

/-- A command byte that is none of the seven named ones is a reserved one (R86). -/
theorem decodeCommand_reserved {op : Byte} (h : reservedByte op = true) (a : ArgWord) :
    decodeCommand op a = .reserved3 op := by
  have hne : ∀ c : Byte, reservedByte c = true →
      c ≠ 0#8 ∧ c ≠ 1#8 ∧ c ≠ 2#8 ∧ c ≠ 4#8 ∧ c ≠ 5#8 ∧ c ≠ 6#8 ∧ c ≠ 7#8 := by decide
  obtain ⟨h0, h1, h2, h4, h5, h6, h7⟩ := hne op h
  simp [decodeCommand, h0, h1, h2, h4, h5, h6, h7]

end Sys2Proof
end

