-- ==== Sys2Proof/Laws/Decoder.lean ====
section
/-! SUPPORT. What the decoder's command can do, once: one entry, the scan, the command. -/

namespace Sys2Proof.Machine

theorem raised_length_le (b : Bool) (r : Report) : (raised b r).length ≤ 1 := by
  cases b <;> simp

theorem callbackEvents_length_le (d : Descriptor) (raw : Half) :
    (callbackEvents d raw).length ≤ 1 := by
  unfold callbackEvents; split <;> simp

theorem dispatchRaw_length_le (s : State) (i : Nat) (d : Descriptor) (raw : Half) :
    (dispatchRaw s i d raw).length ≤ 1 := by
  unfold dispatchRaw
  split
  · split
    · exact callbackEvents_length_le d raw
    · simp
  · exact raised_length_le _ _

/-- The cases of one descriptor (R140): the engine is the only thing that can refuse. -/
theorem decodeEntry_cases (s : State) (f : Frame) (i : Nat) :
    (decodeEntry s f i = .error .descriptorNotOk ∧ DescOK (s.descriptor i) = false) ∨
      ∃ es, decodeEntry s f i = .ok es ∧ es.length ≤ 1 := by
  unfold decodeEntry
  simp only
  split
  · exact .inr ⟨_, rfl, by simp⟩
  split
  · exact .inr ⟨_, rfl, raised_length_le _ _⟩
  split
  · exact .inr ⟨_, rfl, raised_length_le _ _⟩
  rename_i hsup
  have hsome := extractFor_isSome f.data hsup
  cases hx : extractFor (s.descriptor i) f.data with
  | none =>
    rw [hx] at hsome
    exact .inl ⟨rfl, by simpa using hsome.symm⟩
  | some raw => exact .inr ⟨_, rfl, dispatchRaw_length_le s i _ raw⟩

theorem decodeEntry_ok {s : State} {i : Nat} (f : Frame) (h : DescOK (s.descriptor i) = true) :
    ∃ es, decodeEntry s f i = .ok es ∧ es.length ≤ 1 := by
  rcases decodeEntry_cases s f i with ⟨_, hn⟩ | h'
  · simp [h] at hn
  · exact h'

/-- One entry reads only the decoder's control fields and its own descriptor (R140). -/
theorem decodeEntry_congr {s t : State} (f : Frame) (i : Nat) (hd : s.descriptor i = t.descriptor i)
    (hl : s.decLogEn = t.decLogEn) (hc : s.cbEn = t.cbEn) :
    decodeEntry s f i = decodeEntry t f i := by
  unfold decodeEntry dispatchRaw
  rw [hd, hl, hc]

/-- The scan emits the events of its entries in increasing index order (R142, R149). -/
theorem scanFrame_ok {s : State} {f : Frame} {g : Nat → List Event} (n i : Nat)
    (h : ∀ k, i ≤ k → k < i + n → decodeEntry s f k = .ok (g k)) :
    scanFrame s f n i = .ok ((List.range' i n).flatMap g) := by
  induction n generalizing i with
  | zero => rfl
  | succ n ih =>
    have h0 := h i (Nat.le_refl i) (by omega)
    have ht := ih (i + 1) fun k hk hk' => h k (by omega) (by omega)
    simp [scanFrame, h0, ht, List.range'_succ]

theorem scanFrame_refuses {s : State} {f : Frame} (n i : Nat) {r : Refusal}
    (h : scanFrame s f n i = .error r) : r = .descriptorNotOk := by
  induction n generalizing i with
  | zero => simp [scanFrame] at h
  | succ n ih =>
    unfold scanFrame at h
    rcases decodeEntry_cases s f i with ⟨he, _⟩ | ⟨es, he, _⟩
    · rw [he] at h; cases h; rfl
    · rw [he] at h
      cases hr : scanFrame s f n (i + 1) with
      | error r' => rw [hr] at h; cases h; exact ih _ hr
      | ok rest => rw [hr] at h; cases h

theorem scanFrame_congr {s t : State} (f : Frame) (n i : Nat)
    (h : ∀ k, i ≤ k → k < i + n → decodeEntry s f k = decodeEntry t f k) :
    scanFrame s f n i = scanFrame t f n i := by
  induction n generalizing i with
  | zero => rfl
  | succ n ih =>
    simp only [scanFrame]
    rw [h i (Nat.le_refl i) (by omega), ih (i + 1) fun k hk hk' => h k (by omega) (by omega)]

theorem scanFrame_length_le {s : State} {f : Frame} (n i : Nat) {es : List Event}
    (h : scanFrame s f n i = .ok es) : es.length ≤ n := by
  induction n generalizing i es with
  | zero => cases h; simp
  | succ n ih =>
    unfold scanFrame at h
    rcases decodeEntry_cases s f i with ⟨he, _⟩ | ⟨fs, he, hl⟩
    · rw [he] at h; cases h
    · rw [he] at h
      cases hr : scanFrame s f n (i + 1) with
      | error r => rw [hr] at h; cases h
      | ok rest =>
        rw [hr] at h; cases h
        have := ih _ hr
        simp only [List.length_append]; omega

/-- What PROCESS_FRAME can do: append events, or refuse; never fault (R140, R151). -/
theorem execProcessFrame_cases (f : Frame) (s : State) :
    (∃ es, execProcessFrame f s = .next (s.emit es)) ∨
      ∃ r, execProcessFrame f s = .refused r := by
  unfold execProcessFrame
  split
  · exact .inl ⟨_, rfl⟩
  split
  · exact .inr ⟨_, rfl⟩
  · cases scanFrame s f s.dtLen.toNat 0 with
    | error r => exact .inr ⟨r, rfl⟩
    | ok es => exact .inl ⟨es, rfl⟩

theorem execProcessFrame_next {f : Frame} {s t : State} (h : execProcessFrame f s = .next t) :
    ∃ es, t = s.emit es := by
  rcases execProcessFrame_cases f s with ⟨es, he⟩ | ⟨r, he⟩
  · rw [he] at h; cases h; exact ⟨es, rfl⟩
  · rw [he] at h; cases h

end Sys2Proof.Machine
end

