-- ==== Sys2Proof/Laws/Encoder.lean ====
section
/-! SUPPORT. What the encoder's commands can do, once: the linear scans, the transmission, the
program of rule R170. -/

namespace Sys2Proof.Machine

/-! The linear scan stops at the first index it accepts (R21). -/

theorem scanFirst_eq_some {p : Nat → Bool} {n i k : Nat} :
    scanFirst p n i = some k ↔
      i ≤ k ∧ k < i + n ∧ p k = true ∧ ∀ m, i ≤ m → m < k → p m = false := by
  induction n generalizing i with
  | zero => simp [scanFirst]; omega
  | succ n ih =>
    unfold scanFirst
    split
    · rename_i hp
      simp only [Option.some.injEq]
      constructor
      · rintro rfl; exact ⟨Nat.le_refl _, by omega, hp, fun m h1 h2 => by omega⟩
      · rintro ⟨h1, _, _, h4⟩
        by_contra hne
        have := h4 i (Nat.le_refl i) (by omega)
        simp [hp] at this
    · rename_i hp
      rw [ih]
      constructor
      · rintro ⟨h1, h2, h3, h4⟩
        refine ⟨by omega, by omega, h3, fun m hm hmk => ?_⟩
        by_cases h : m = i
        · subst h; simpa using hp
        · exact h4 m (by omega) hmk
      · rintro ⟨h1, h2, h3, h4⟩
        have : i ≠ k := by rintro rfl; exact hp h3
        exact ⟨by omega, by omega, h3, fun m hm hmk => h4 m (by omega) hmk⟩

theorem scanFirst_eq_none {p : Nat → Bool} {n i : Nat} :
    scanFirst p n i = none ↔ ∀ m, i ≤ m → m < i + n → p m = false := by
  induction n generalizing i with
  | zero => simp [scanFirst]; omega
  | succ n ih =>
    unfold scanFirst
    split
    · rename_i hp
      simp only [reduceCtorEq, false_iff]
      intro h
      simp [h i (Nat.le_refl i) (by omega)] at hp
    · rename_i hp
      rw [ih]
      constructor
      · intro h m hm hm'
        by_cases he : m = i
        · subst he; simpa using hp
        · exact h m (by omega) (by omega)
      · intro h m hm hm'; exact h m (by omega) (by omega)

/-- Step 1 finds the first descriptor in use with the name (R171). -/
theorem findName_eq_some {s : State} {name : Name} {i : Nat} :
    findName s name = some i ↔
      FirstIndex (fun k => (s.descriptor k).name = name) s.dtLen.toNat i := by
  simp [findName, scanFirst_eq_some, FirstIndex]

theorem findName_eq_none {s : State} {name : Name} :
    findName s name = none ↔ ∀ i < s.dtLen.toNat, (s.descriptor i).name ≠ name := by
  simp [findName, scanFirst_eq_none]

/-- Step 2 finds the first live buffer in use with the identifier (R172). -/
theorem findBuffer_eq_some {s : State} {id : FrameId} {j : Nat} :
    findBuffer s id = some j ↔ FirstIndex (fun k => (s.buffer k).id = id) s.lbLen.toNat j := by
  simp [findBuffer, scanFirst_eq_some, FirstIndex]

theorem findBuffer_eq_none {s : State} {id : FrameId} :
    findBuffer s id = none ↔ ∀ j < s.lbLen.toNat, (s.buffer j).id ≠ id := by
  simp [findBuffer, scanFirst_eq_none]

/-- The value of a send is its operand's low 1, 8 or 16 bits (R84, R174). -/
theorem sendValue_eq_spec (e : EntryPoint) (v : Half) : sendValue e v = specSendValue e v := by
  cases e with
  | bool => apply BitVec.eq_of_toNat_eq; simp [sendValue, specSendValue, BitVec.extractLsb'_toNat]
  | u8 => apply BitVec.eq_of_toNat_eq; simp [sendValue, specSendValue, BitVec.extractLsb'_toNat]
  | u16 => rfl

/-- The type check passes for exactly the pairs of R175; never for an unsupported type. -/
theorem typeOk_supported {p : EncTypePolicy} {e : EntryPoint} {t : TypeTag}
    (h : typeOk p e t = true) : t ≠ .unsupported := by
  cases p <;> cases e <;> cases t <;> simp_all [typeOk, EntryPoint.tag]

theorem sendValid_iff {s : State} {e : EntryPoint} {d : Descriptor} {v : Half} :
    sendValid s e d v = true ↔
      s.encReady = true ∧ s.TypeAccepted e d.type ∧ d.min.toNat ≤ v.toNat ∧
        v.toNat ≤ d.max.toNat := by
  unfold sendValid State.TypeAccepted typeOk inRange
  cases s.policy <;> simp [and_assoc]

/-- What a transmission does (R64, R176): the data of buffer `j` become the packed payload and the
event carries the buffer as it is then. -/
theorem transmit_of_pack {s : State} {d : Descriptor} {j : Nat} {v : Half} {data : Payload}
    (h : packFor d v (s.buffer j).data = some data) :
    transmit s d j v =
      .next ((s.setBufferData j data).emit [.tx { s.buffer j with data := data }]) := by
  simp [transmit, h]

/-- What the program of a send can do (R170): refuse, append one gated report, or transmit from a
live buffer in use. -/
theorem sendCommon_cases (e : EntryPoint) (name : Name) (v : Half) (s : State) :
    (∃ r, sendCommon e name v s = .refused r) ∨
      (∃ r, sendCommon e name v s = .next (s.emit (raised s.encLogEn r))) ∨
        ∃ i j data, findName s name = some i ∧
          findBuffer s (s.descriptor i).frameId = some j ∧
          sendValid s e (s.descriptor i) (sendValue e v) = true ∧
          packFor (s.descriptor i) (sendValue e v) (s.buffer j).data = some data ∧
          sendCommon e name v s =
            .next ((s.setBufferData j data).emit [.tx { s.buffer j with data := data }]) := by
  unfold sendCommon
  split
  · exact .inl ⟨_, rfl⟩
  cases hn : findName s name with
  | none => exact .inr (.inl ⟨_, rfl⟩)
  | some i =>
    simp only
    cases hb : findBuffer s (s.descriptor i).frameId with
    | none => exact .inr (.inl ⟨_, rfl⟩)
    | some j =>
      simp only
      split
      · rename_i hv
        cases hp : packFor (s.descriptor i) (sendValue e v) (s.buffer j).data with
        | none => exact .inl ⟨.descriptorNotOk, by simp [transmit, hp]⟩
        | some data =>
          exact .inr (.inr ⟨i, j, data, rfl, hb, hv, hp, transmit_of_pack hp⟩)
      · exact .inr (.inl ⟨_, rfl⟩)

/-- The next state of a send, if it answers one (R170). -/
theorem sendCommon_next {e : EntryPoint} {name : Name} {v : Half} {s t : State}
    (h : sendCommon e name v s = .next t) :
    (∃ r, t = s.emit (raised s.encLogEn r)) ∨
      ∃ j data, j < s.lbLen.toNat ∧ s.encReady = true ∧
        t = (s.setBufferData j data).emit [.tx { s.buffer j with data := data }] := by
  rcases sendCommon_cases e name v s with ⟨r, he⟩ | ⟨r, he⟩ | ⟨i, j, data, _, hb, hv, _, he⟩
  · rw [he] at h; cases h
  · rw [he] at h; cases h; exact .inl ⟨r, rfl⟩
  · rw [he] at h; cases h
    exact .inr ⟨j, data, (findBuffer_eq_some.mp hb).1, (sendValid_iff.mp hv).1, rfl⟩

end Sys2Proof.Machine
end

