-- ==== Sys2Proof/Laws/PerInstr.lean ====
section
/-! SUPPORT. Statements made for every instruction, one lemma per constructor of `Instr`.
`OpcodeBits`: the fixed bits of an instruction's row of spec/opcode_table.json stand in its words. -/

namespace Sys2Proof.Laws.OpcodeBits

/-- The context and the (mask, match) bits of an engine row, or of a command row's command byte, in
the words of an instruction: the `mask` and `match` columns of the opcode table. -/
def hasCommandBits (mask val : Byte) : FetchWord → Bool
  | .command op _ => op &&& mask == val
  | .selector _ _ => false

def hasSelectorBits (ctx : EngineCtx) (mask val : BitVec 2) : FetchWord → Bool
  | .command _ _ => false
  | .selector c sel => c == ctx && (sel &&& mask == val)

/-- The row of the opcode table that an instruction's words must match. The reserved code 3 also
stands for every command byte with bits 7..3 not 0 (the row's note, R86). -/
def rowBits : Instr → FetchWord → Bool
  | .initDec _ _ _ _, w => hasCommandBits 0xFF 0x00 w
  | .initEnc _ _ _ _, w => hasCommandBits 0xFF 0x01 w
  | .processFrame _, w => hasCommandBits 0xFF 0x02 w
  | .reserved3 op, w => hasCommandBits 0xFF op w && reservedByte op
  | .sendBool _ _, w => hasCommandBits 0xFF 0x04 w
  | .sendU8 _ _, w => hasCommandBits 0xFF 0x05 w
  | .sendU16 _ _, w => hasCommandBits 0xFF 0x06 w
  | .reserved7, w => hasCommandBits 0xFF 0x07 w
  | .extract8 _, w => hasSelectorBits .decode 2 0 w
  | .extract16, w => hasSelectorBits .decode 3 2 w
  | .unsupportedDec, w => hasSelectorBits .decode 3 3 w
  | .pack8 _, w => hasSelectorBits .encode 2 0 w
  | .pack16, w => hasSelectorBits .encode 3 2 w
  | .unsupportedEnc, w => hasSelectorBits .encode 3 3 w

/-- The words of a well-formed instruction carry the fixed bits of its row. -/
def Statement (i : Instr) : Prop := wellFormed i = true → rowBits i (encode i) = true

theorem initDec (tbl log : Bool) (cb : BitVec 3) (len : Len) :
    Statement (.initDec tbl log cb len) := fun _ => rfl

theorem initEnc (lb log tx : Bool) (len : Len) : Statement (.initEnc lb log tx len) := fun _ => rfl

theorem processFrame (f : Frame) : Statement (.processFrame f) := fun _ => rfl

theorem reserved3 (op : Byte) : Statement (.reserved3 op) := by
  intro h
  have hop : op &&& 255#8 = op := BitVec.and_allOnes
  simp only [rowBits, encode, hasCommandBits, Bool.and_eq_true, beq_iff_eq]
  exact ⟨hop, h⟩

theorem sendBool (name : Name) (v : Half) : Statement (.sendBool name v) := fun _ => rfl

theorem sendU8 (name : Name) (v : Half) : Statement (.sendU8 name v) := fun _ => rfl

theorem sendU16 (name : Name) (v : Half) : Statement (.sendU16 name v) := fun _ => rfl

theorem reserved7 : Statement .reserved7 := fun _ => rfl

theorem extract8 (t : BitVec 1) : Statement (.extract8 t) := by
  intro _; revert t; decide

theorem extract16 : Statement .extract16 := fun _ => rfl

theorem unsupportedDec : Statement .unsupportedDec := fun _ => rfl

theorem pack8 (t : BitVec 1) : Statement (.pack8 t) := by
  intro _; revert t; decide

theorem pack16 : Statement .pack16 := fun _ => rfl

theorem unsupportedEnc : Statement .unsupportedEnc := fun _ => rfl

end Sys2Proof.Laws.OpcodeBits
end

