-- ==== Sys2Proof/Laws/Step.lean ====
section
/-! SUPPORT. What an instruction and a step can do, once: later proofs of invariants and frames cite
`exec_next` and `step_next` and unfold neither. -/

namespace Sys2Proof.Machine

/-- The next state of an instruction, if it answers one: an INIT writes its own fields and the
result, a send writes the data of one live buffer in use and emits `TX`, an engine operation writes
the datapath, and everything else only appends events. -/
theorem exec_next {i : Instr} {s t : State} (h : exec i s = .next t) :
    (∃ tbl log cb len, i = .initDec tbl log cb len ∧
        t = State.giveResult { s with
          dtLen := if tbl then len else 0, decLogEn := log, cbEn := cb,
          decReady := tbl && log, dtStale := false } (tbl && log)) ∨
      (∃ lb log tx len, i = .initEnc lb log tx len ∧
        t = State.giveResult { s with
          lbLen := if lb then len else 0, encLogEn := log,
          encReady := lb && (len != 0) && log && tx } (lb && (len != 0) && log && tx)) ∨
      (∃ es, t = s.emit es) ∨
      (∃ j data, j < s.lbLen.toNat ∧ s.encReady = true ∧
        t = (s.setBufferData j data).emit [.tx { s.buffer j with data := data }]) ∨
      ∃ dp, t = { s with dp := dp } := by
  have hsend : ∀ {e name v}, sendCommon e name v s = .next t →
      (∃ es, t = s.emit es) ∨ (∃ j data, j < s.lbLen.toNat ∧ s.encReady = true ∧
        t = (s.setBufferData j data).emit [.tx { s.buffer j with data := data }]) := by
    intro e name v h'
    rcases sendCommon_next h' with ⟨r, rfl⟩ | h''
    · exact .inl ⟨_, rfl⟩
    · exact .inr h''
  cases i with
  | initDec tbl log cb len => cases h; exact .inl ⟨tbl, log, cb, len, rfl, rfl⟩
  | initEnc lb log tx len => cases h; exact .inr (.inl ⟨lb, log, tx, len, rfl, rfl⟩)
  | processFrame f => exact .inr (.inr (.inl (execProcessFrame_next h)))
  | reserved3 op => cases h; exact .inr (.inr (.inl ⟨[], (State.emit_nil s).symm⟩))
  | reserved7 => cases h; exact .inr (.inr (.inl ⟨[], (State.emit_nil s).symm⟩))
  | sendBool name v => exact .inr (.inr ((hsend h).imp_right .inl))
  | sendU8 name v => exact .inr (.inr ((hsend h).imp_right .inl))
  | sendU16 name v => exact .inr (.inr ((hsend h).imp_right .inl))
  | unsupportedDec => cases h; exact .inr (.inr (.inl ⟨_, rfl⟩))
  | unsupportedEnc => cases h; exact .inr (.inr (.inl ⟨_, rfl⟩))
  | extract8 b =>
    simp only [exec, execExtract8] at h
    split at h <;> cases h
    exact .inr (.inr (.inr (.inr ⟨_, rfl⟩)))
  | extract16 =>
    simp only [exec, execExtract16] at h
    split at h <;> cases h
    exact .inr (.inr (.inr (.inr ⟨_, rfl⟩)))
  | pack8 b =>
    simp only [exec, execPack8] at h
    split at h <;> cases h
    exact .inr (.inr (.inr (.inr ⟨_, rfl⟩)))
  | pack16 =>
    simp only [exec, execPack16] at h
    split at h <;> cases h
    exact .inr (.inr (.inr (.inr ⟨_, rfl⟩)))

/-- What the sequencer takes up. -/
theorem State.fetch_of_request {s : State} {ctx : EngineCtx} {sel : BitVec 2}
    (h : s.dp.request = some (ctx, sel)) : s.fetch = .run (.selector ctx sel) s.takeRequest := by
  simp [State.fetch, h]

theorem State.fetch_of_command {s : State} {op : Byte} {arg : ArgWord} {rest : List HostAction}
    (hr : s.dp.request = none) (hp : s.port = .command op arg :: rest) :
    s.fetch = .run (.command op arg) (s.withPort rest) := by
  simp [State.fetch, hr, hp]

theorem State.fetch_present (s : State) (w : FetchWord) :
    ∃ s', (s.present w).fetch = .run w s' := by
  cases w with
  | command op arg => exact ⟨_, rfl⟩
  | selector ctx sel => exact ⟨_, rfl⟩

/-- The next state of a step, if it answers one. -/
theorem step_next {s t : State} (h : step s = .next t) :
    t = s ∨ (∃ i s', (s' = s.takeRequest ∨ ∃ rest, s' = s.withPort rest) ∧ exec i s' = .next t) ∨
      (∃ (i : Len) (d : Descriptor) (rest : List HostAction), i.toNat < Config.nMax ∧ t = { s with
        port := rest, dt := s.dt.write i.toNat d,
        dtStale := s.dtStale || decide (i.toNat < s.dtLen.toNat) }) ∨
      (∃ (j : Len) (f : Frame) (rest : List HostAction), j.toNat < Config.mMax ∧
        t = { s with port := rest, lb := s.lb.write j.toNat f }) ∨
      ∃ rest, t = { State.reset with policy := s.policy, dt := s.dt, lb := s.lb, port := rest } := by
  unfold step State.fetch at h
  cases hr : s.dp.request with
  | some r =>
    obtain ⟨ctx, sel⟩ := r
    simp only [hr] at h
    exact .inr (.inl ⟨_, _, .inl rfl, h⟩)
  | none =>
    simp only [hr] at h
    match hp : s.port with
    | [] => rw [hp] at h; cases h; exact .inl rfl
    | .command op arg :: rest => rw [hp] at h; exact .inr (.inl ⟨_, _, .inr ⟨rest, rfl⟩, h⟩)
    | .writeDescriptor i d :: rest =>
      rw [hp] at h
      simp only [hostLoadDescriptor] at h
      split at h <;> cases h
      rename_i hi
      exact .inr (.inr (.inl ⟨i, d, rest, hi, rfl⟩))
    | .writeBuffer j f :: rest =>
      rw [hp] at h
      simp only [hostFillBuffer] at h
      split at h <;> cases h
      rename_i hj
      exact .inr (.inr (.inr (.inl ⟨j, f, rest, hj, rfl⟩)))
    | .reset :: rest => rw [hp] at h; cases h; exact .inr (.inr (.inr (.inr ⟨rest, rfl⟩)))

end Sys2Proof.Machine
end

