-- ==== Sys2Proof/Tests/Slice0.lean ====
section
/-! SUPPORT. Tests of the model on the spec's own words and vectors (95_test_vectors.md), and one
witness for the hypotheses of each statement of Sys2Proof/Certificates/Slice0/Obligations.lean. -/

namespace Sys2Proof.Tests

open Sys2Proof Sys2Proof.Machine

/-! ## Small states -/

/-- The payload `ALT` of 95_test_vectors.md. -/
def alt : Payload := #v[0xAA, 0x55, 0xAA, 0x55, 0xAA, 0x55, 0xAA, 0x55]

/-- The payload `SEQ` of 95_test_vectors.md. -/
def seq : Payload := #v[0x01, 0x23, 0x45, 0x67, 0x89, 0xAB, 0xCD, 0xEF]

/-- The payload `ZERO` of 95_test_vectors.md. -/
def zero : Payload := #v[0, 0, 0, 0, 0, 0, 0, 0]

/-- "Speed", "Rpm", "Door": name fields of rule R89, first character lowest. -/
def speedName : Name := 0x6465657053
def rpmName : Name := 0x6D7052
def doorName : Name := 0x726F6F44

/-- A descriptor with a field, bounds and a type. -/
def desc (id : FrameId) (sig : SignalId) (name : Name) (st en : BitPos) (lo hi : Half)
    (t : TypeTag) : Descriptor :=
  { frameId := id, signalId := sig, name := name, startBit := st, endBit := en, min := lo,
    max := hi, type := t }

/-- A ready decoder with all callbacks over a table. -/
def decoding (ds : List (Nat × Descriptor)) (n : Len) : State :=
  { State.reset with decReady := true, decLogEn := true, cbEn := 0b111, dtLen := n, dt := ds }

/-- A ready encoder over a table and its live buffers. -/
def encoding (ds : List (Nat × Descriptor)) (n : Len) (fs : List (Nat × Frame)) (m : Len) : State :=
  { decoding ds n with encReady := true, encLogEn := true, lbLen := m, lb := fs }

/-- An engine operation's operands in the datapath. -/
def engine (st en : BitPos) (v : Half) (p : Payload) : State :=
  { State.reset with dp :=
    { Datapath.idle with startBit := st, endBit := en, value := v, payload := p } }

/-- The state after an outcome, if there is one. -/
def after : Host.Outcome State Fault Refusal → Option State
  | .next t => some t
  | _ => none

/-- What was emitted up to an outcome. -/
def emitted (o : Host.Outcome State Fault Refusal) : Option (List Event) := (after o).map (·.out)

/-- The payload of live buffer 0 after an outcome. -/
def buffer0 (o : Host.Outcome State Fault Refusal) : Option Payload :=
  (after o).map fun t => (t.buffer 0).data

/-- The datapath's raw value after an outcome. -/
def rawOf (o : Host.Outcome State Fault Refusal) : Option Half := (after o).map (·.dp.raw)

/-- The datapath's payload after an outcome. -/
def payloadOf (o : Host.Outcome State Fault Refusal) : Option Payload :=
  (after o).map (·.dp.payload)

/-! ## Decoding: words of 95_test_vectors.md section 2.7 and the rows of the opcode table -/

theorem test_decode_initDec :
    decodeCommand 0x00 0x0000FF = .initDec true true 0b111 7 := by decide
theorem test_decode_initEnc : decodeCommand 0x01 0x0000B = .initEnc true true false 1 := by decide
theorem test_decode_processFrame : decodeCommand 0x02 0x0000030088000000064775FA0 =
    .processFrame { id := 0x300, dlc := 8, data := #v[0xA0, 0x5F, 0x77, 0x64, 0, 0, 0, 0x80] } := by
  decide
theorem test_decode_reserved3 : decodeCommand 0x03 0xFF = .reserved3 0x03 := by decide
theorem test_decode_reserved_high : decodeCommand 0x08 0xFF = .reserved3 0x08 := by decide
theorem test_decode_sendBool :
    decodeCommand 0x04 0x000000000000000000000000726F6F440001 = .sendBool doorName 1 := by decide
theorem test_decode_sendU8 :
    decodeCommand 0x05 0x00000000000000000000006465657053002A = .sendU8 speedName 42 := by decide
theorem test_decode_sendU16 :
    decodeCommand 0x06 0x000000000000000000000000006D70520ABC = .sendU16 rpmName 0xABC := by decide
theorem test_decode_reserved7 : decodeCommand 0x07 0xFF = .reserved7 := by decide
theorem test_decode_extract8 : decodeSelector .decode 0b00 = .extract8 0 := by decide
theorem test_decode_extract16 : decodeSelector .decode 0b10 = .extract16 := by decide
theorem test_decode_unsupportedDec : decodeSelector .decode 0b11 = .unsupportedDec := by decide
theorem test_decode_pack8 : decodeSelector .encode 0b01 = .pack8 1 := by decide
theorem test_decode_pack16 : decodeSelector .encode 0b10 = .pack16 := by decide
theorem test_decode_unsupportedEnc : decodeSelector .encode 0b11 = .unsupportedEnc := by decide

/-- A table word is the command byte alone, operands zero; a 2-bit word is a selector. -/
theorem test_table_words :
    decodeTableWord 8 0x00 = some (.initDec false false 0 0) ∧
    decodeTableWord 8 0x06 = some (.sendU16 0 0) ∧
    decodeTableWord 8 0x07 = some .reserved7 ∧
    decodeTableWord 2 0b10 = some .extract16 ∧ decodeTableWord 1 0 = none := by decide

/-- Placed as the first instruction after reset, INIT_ENC is what the step runs. -/
theorem test_withFetchWord_runs :
    step (State.reset.withFetchWord 32 0x1701) =
      exec (.initEnc true true true 2) State.reset := by rfl

/-- The descriptor record of rule R87 in 95_test_vectors.md section 2.7. -/
theorem test_descriptor_record :
    (desc 0x100 1 doorName 0 0 0 1 .bool).toBits =
      0x0000000000000000000000001C9BDBD10000004000004000400000000 := by decide

/-- The frame record of rule R88 in 95_test_vectors.md section 2.7. -/
theorem test_frame_record :
    Frame.toBits { id := 0x400, dlc := 4,
                   data := #v[0x11, 0x22, 0xA5, 0x44, 0x55, 0x66, 0x77, 0x88] } =
      0x0000040048877665544A52211 := by decide

/-! ## Well-formedness -/

/-- The reserved constructor refuses a byte that has a meaning of its own (R80, R86). -/
theorem test_wellFormed_refuses_named_bytes :
    wellFormed (.reserved3 0x05) = false ∧ wellFormed (.reserved3 0x07) = false ∧
    wellFormed (.reserved3 0x03) = true ∧ wellFormed (.reserved3 0x85) = true := by decide

/-- The four descriptors of 95_test_vectors.md section 2.2 that fail `DescOK`. -/
theorem test_descOK_refuses :
    DescOK (desc 0 0 0 5 4 0 0 .u8) = false ∧ DescOK (desc 0 0 0 0 16 0 0 .u16) = false ∧
    DescOK (desc 0 0 0 64 64 0 0 .bool) = false ∧ DescOK (desc 0 0 0 56 63 0 0 .u16) = false := by
  decide

/-- V-X18, V-X19: `DescOK` true, `DescFit` false. -/
theorem test_descFit_refuses :
    DescOK (desc 0 0 0 4 11 0 0 .u8) = true ∧ DescFit (desc 0 0 0 4 11 0 0 .u8) = false ∧
    DescOK (desc 0 0 0 7 22 0 0 .u16) = true ∧ DescFit (desc 0 0 0 7 22 0 0 .u16) = false := by
  decide

/-- Section 2.1: four entries of the mask table, and two that do not exist. -/
theorem test_mask_table :
    maskTable 1 = some 0x0001 ∧ maskTable 8 = some 0x00FF ∧ maskTable 9 = some 0x01FF ∧
    maskTable 16 = some 0xFFFF ∧ maskTable 0 = none ∧ maskTable 17 = none := by decide

/-! ## Initialisation: section 2.6 -/

/-- V-I4, run from its words. -/
theorem test_initDec_ready :
    (after (exec (decodeCommand 0x00 0x00007F) State.reset)).map
      (fun t => (t.decReady, t.decLogEn, t.cbEn, t.dtLen, t.results)) =
      some (true, true, 0b111, 3, [true]) := by decide

/-- V-I3: no log, the table is installed all the same. -/
theorem test_initDec_without_log :
    (after (exec (decodeCommand 0x00 0x00007D) State.reset)).map
      (fun t => (t.decReady, t.decLogEn, t.dtLen, t.results)) =
      some (false, false, 3, [false]) := by decide

/-- V-I6 then V-I7: the ready encoder becomes not ready. -/
theorem test_initEnc_again :
    (after (exec (decodeCommand 0x01 0x00013) (encoding [] 0 [] 2))).map
      (fun t => (t.encReady, t.encLogEn, t.lbLen, t.results)) =
      some (false, true, 2, [false]) := by decide

/-- V-I10: a buffer table of length 0 does not make the encoder ready. -/
theorem test_initEnc_empty_table :
    (after (exec (decodeCommand 0x01 0x00007) State.reset)).map
      (fun t => (t.encReady, t.encLogEn, t.lbLen, t.results)) =
      some (false, true, 0, [false]) := by decide

/-! ## The reserved codes -/

theorem test_reserved3_ignored :
    after (step (State.reset.present (.command 0xFD 0xFF))) = some State.reset := by decide
theorem test_reserved7_ignored :
    after (step (State.reset.present (.command 0x07 0xFF))) = some State.reset := by decide

/-! ## The engine: sections 2.2 and 2.3 -/

/-- V-X7. -/
theorem test_extract8_inside_byte :
    rawOf (exec (.extract8 1) (engine 9 14 0 seq)) = some 0x0011 := by decide
/-- V-X18: the part of the field in the next byte is not read. -/
theorem test_extract8_leaves_window :
    rawOf (exec (.extract8 1) (engine 4 11 0 alt)) = some 0x000A := by decide
/-- V-X15: an odd byte offset. -/
theorem test_extract16_odd_offset :
    rawOf (exec .extract16 (engine 12 19 0 seq)) = some 0x0052 := by decide
/-- V-X13: the last window of the payload. -/
theorem test_extract16_last_window :
    rawOf (exec .extract16 (engine 48 63 0 seq)) = some 0xEFCD := by decide
/-- V-P5 into `ALT`. -/
theorem test_pack8_high_nibble :
    payloadOf (exec (.pack8 1) (engine 4 7 0x9 alt)) =
      some #v[0x9A, 0x55, 0xAA, 0x55, 0xAA, 0x55, 0xAA, 0x55] := by decide
/-- V-P15 into `ALT`: the value is not masked. -/
theorem test_pack8_wide_value :
    payloadOf (exec (.pack8 1) (engine 8 11 0x1F alt)) =
      some #v[0xAA, 0x5F, 0xAA, 0x55, 0xAA, 0x55, 0xAA, 0x55] := by decide
/-- V-P13 into `ALT`. -/
theorem test_pack16_odd_offset :
    payloadOf (exec .pack16 (engine 12 19 0xC3 alt)) =
      some #v[0xAA, 0x35, 0xAC, 0x55, 0xAA, 0x55, 0xAA, 0x55] := by decide
/-- V-P18 into `ALT`: the value is not masked. -/
theorem test_pack16_wide_value :
    payloadOf (exec .pack16 (engine 0 3 0x1234 alt)) =
      some #v[0xB4, 0x57, 0xAA, 0x55, 0xAA, 0x55, 0xAA, 0x55] := by decide
/-- R144, R93: the row reports the descriptor in hand. -/
theorem test_unsupportedDec_reports :
    emitted (exec .unsupportedDec { decoding [] 0 with dp := { Datapath.idle with scan := 4 } }) =
      some [.rpt .warning (.unsupportedType 4)] := by decide
/-- R173, R93: the row reports index, value and entry point. -/
theorem test_unsupportedEnc_reports :
    emitted (exec .unsupportedEnc { encoding [] 0 [] 1 with
      dp := { Datapath.idle with scan := 3, value := 1, entry := .u16 } }) =
      some [.rpt .warning (.encReject 3 1 .u16)] := by decide

/-! ## The decoder: section 2.4 -/

/-- The table of V-D17, in its first order. -/
def tableD17 : List (Nat × Descriptor) :=
  [(0, desc 0x300 9 0x41 0 7 0 255 .u8), (1, desc 0x300 10 0x43 8 23 0 65535 .u16)]

/-- V-D17 with `dlc` = 2: table order, and a skipped signal does not stop the others. -/
theorem test_processFrame_skips_one :
    emitted (exec (.processFrame { id := 0x300, dlc := 2, data := #v[0x11, 0x22, 0x33, 0, 0, 0, 0, 0] })
      (decoding tableD17 2)) =
      some [.cbU8 0x41 9 17, .rpt .warning (.frameTooShort 1 2)] := by decide

/-- V-D7: `8 < 8` is false, so the bit is decoded from the byte beyond `dlc`. -/
theorem test_processFrame_length_boundary :
    emitted (exec (.processFrame { id := 0x210, dlc := 1, data := #v[0, 1, 0, 0, 0, 0, 0, 0] })
      (decoding [(0, desc 0x210 3 0x53 8 8 0 1 .bool)] 1)) =
      some [.cbBool 0x53 3 1] := by decide

/-! ## The encoder: section 2.5 -/

/-- The first entry of V-E1. -/
def speedDesc : Descriptor := desc 0x400 10 speedName 8 15 0 200 .u8

/-- V-E9 under `fixed`. -/
theorem test_sendBool_fixed :
    buffer0 (exec (.sendBool doorName 1)
      (encoding [(0, desc 0x300 15 doorName 0 0 0 1 .bool)] 1 [(0, ⟨0x300, 8, alt⟩)] 1)) =
      some #v[0xAB, 0x55, 0xAA, 0x55, 0xAA, 0x55, 0xAA, 0x55] := by decide

/-- V-E9 under `reference`. -/
theorem test_sendBool_reference :
    emitted (exec (.sendBool doorName 1)
      { encoding [(0, desc 0x300 15 doorName 0 0 0 1 .bool)] 1 [(0, ⟨0x300, 8, alt⟩)] 1 with
        policy := .reference }) =
      some [.rpt .warning (.encReject 0 1 .bool)] := by decide

/-- V-E1. -/
theorem test_sendU8_transmits :
    emitted (exec (.sendU8 speedName 42)
      (encoding [(0, speedDesc)] 1 [(0, ⟨0x400, 8, alt⟩)] 1)) =
      some [.tx ⟨0x400, 8, #v[0xAA, 0x2A, 0xAA, 0x55, 0xAA, 0x55, 0xAA, 0x55]⟩] := by decide

/-- V-E5: not ready, the lookups still run first. -/
theorem test_sendU8_not_ready :
    emitted (exec (.sendU8 speedName 42)
      { encoding [(0, speedDesc)] 1 [(0, ⟨0x400, 8, alt⟩)] 1 with encReady := false }) =
      some [.rpt .warning (.encReject 0 42 .u8)] := by decide

/-- V-E10 under `fixed`. -/
theorem test_sendU16_fixed :
    buffer0 (exec (.sendU16 rpmName 0xABC)
      (encoding [(0, desc 0x300 16 rpmName 4 15 0 4000 .u16)] 1 [(0, ⟨0x300, 8, alt⟩)] 1)) =
      some #v[0xCA, 0xAB, 0xAA, 0x55, 0xAA, 0x55, 0xAA, 0x55] := by decide

/-- V-E11 under `reference`: the pack goes by the descriptor's type. -/
theorem test_sendU16_reference :
    buffer0 (exec (.sendU16 speedName 150)
      { encoding [(0, speedDesc)] 1 [(0, ⟨0x400, 8, alt⟩)] 1 with policy := .reference }) =
      some #v[0xAA, 0x96, 0xAA, 0x55, 0xAA, 0x55, 0xAA, 0x55] := by decide

/-! ## Witnesses: states and operands that meet the hypotheses of the statements -/

/-- A host that has pending what a list says. -/
def pending (s : State) (as : List HostAction) : State := { s with port := as }

/-- The frame of V-D17. -/
def frameD17 : Frame := ⟨0x300, 3, #v[0x11, 0x22, 0x33, 0, 0, 0, 0, 0]⟩

/-- A ready decoder over V-D17 and a descriptor of unsupported type. -/
def decoderS : State := decoding (tableD17 ++ [(2, desc 0x300 11 0x4F 0 7 0 255 .unsupported)]) 3

/-- A ready encoder over "Speed", "Rpm", "Door" and two live buffers. -/
def encoderS : State :=
  encoding [(0, speedDesc), (1, desc 0x300 16 rpmName 4 15 0 4000 .u16),
      (2, desc 0x300 15 doorName 0 0 0 1 .bool), (3, desc 0x500 14 0x47 0 7 0 255 .u8)] 4
    [(0, ⟨0x400, 8, alt⟩), (1, ⟨0x300, 8, alt⟩)] 2

theorem witness_StepRunsDecodedInstruction :
    { encoderS with dp := { Datapath.idle with request := some (.encode, 2) } }.dp.request =
        some (.encode, 2) ∧
    (pending encoderS [.command 0x05 0, .reset]).dp.request = none ∧
    (pending encoderS [.command 0x05 0, .reset]).port = .command 0x05 0 :: [.reset] := by decide

theorem witness_PresentedInstructionRuns :
    wellFormed (.sendU16 rpmName 0xFFFF) = true ∧ wellFormed (.reserved3 0xFF) = true := by decide

theorem witness_DecodeEncodeAgree :
    wellFormed (.processFrame frameD17) = true ∧ wellFormed (.reserved3 0x08) = true ∧
    wellFormed (.pack8 1) = true := by decide

theorem witness_OperandBitsAboveLayoutIgnored :
    (5 : ArgWord).toNat % 2 ^ 21 = (0x200005 : ArgWord).toNat % 2 ^ 21 ∧
    (5 : ArgWord).toNat % 2 ^ 19 = (0x80005 : ArgWord).toNat % 2 ^ 19 ∧
    (5 : ArgWord).toNat % 2 ^ 100 = (0x10000000000000000000000005 : ArgWord).toNat % 2 ^ 100 ∧
    (5 : ArgWord) ≠ 0x200005 ∧ (5 : ArgWord) ≠ 0x80005 := by simp

theorem witness_ReservedCommandsAreIgnored :
    ((3 : Byte) = 3 ∨ (3 : Byte) = 7 ∨ 8 ≤ (3 : Byte).toNat) ∧
    ((7 : Byte) = 3 ∨ (7 : Byte) = 7 ∨ 8 ≤ (7 : Byte).toNat) ∧
    ((8 : Byte) = 3 ∨ (8 : Byte) = 7 ∨ 8 ≤ (8 : Byte).toNat) ∧
    (pending encoderS [.command 8 5]).dp.request = none ∧
    (pending encoderS [.command 8 5]).port = .command 8 5 :: [] := by decide

theorem witness_InitFrames :
    (∃ t, exec (.initDec false true 0b101 0xFFFF) decoderS = .next t) ∧
    ∃ t, exec (.initEnc true true true 0) encoderS = .next t := ⟨⟨_, rfl⟩, ⟨_, rfl⟩⟩

theorem witness_LaterInitReplacesConfiguration :
    (∃ u, exec (.initDec true true 0b111 3) decoderS = .next u) ∧
    ∃ u, exec (.initEnc true true false 2) encoderS = .next u := ⟨⟨_, rfl⟩, ⟨_, rfl⟩⟩

theorem witness_MaskTableValues :
    (1 ≤ 1 ∧ 1 ≤ 16) ∧ (1 ≤ 16 ∧ 16 ≤ 16) ∧ ((0 : Int) < 1 ∨ 16 < (0 : Int)) ∧
    ((17 : Int) < 1 ∨ 16 < (17 : Int)) := by decide

/-- The last 1-byte window of the payload, and a field that leaves its window. -/
theorem witness_ExtractEightGivesField :
    windowOk 1 (engine 56 63 0 alt).dp.startBit (engine 56 63 0 alt).dp.endBit = true ∧
    windowOk 1 (engine 63 78 0 alt).dp.startBit (engine 63 78 0 alt).dp.endBit = true := by decide

/-- The last 2-byte window of the payload, and a field that leaves its window. -/
theorem witness_ExtractSixteenGivesField :
    windowOk 2 (engine 48 63 0 alt).dp.startBit (engine 48 63 0 alt).dp.endBit = true ∧
    windowOk 2 (engine 55 70 0 alt).dp.startBit (engine 55 70 0 alt).dp.endBit = true := by decide

theorem witness_PackEightWritesWindow :
    windowOk 1 (engine 56 63 0xFFFF alt).dp.startBit (engine 56 63 0xFFFF alt).dp.endBit = true := by
  decide

theorem witness_PackSixteenWritesWindow :
    windowOk 2 (engine 48 63 0xFFFF alt).dp.startBit (engine 48 63 0xFFFF alt).dp.endBit = true := by
  decide

theorem witness_EngineLatchesGeometry :
    (∃ t, exec (.extract8 1) (engine 7 7 0 alt) = .next t) ∧
    (∃ t, exec .extract16 (engine 7 22 0 alt) = .next t) ∧
    (∃ t, exec (.pack8 0) (engine 63 63 1 alt) = .next t) ∧
    ∃ t, exec .pack16 (engine 48 63 1 alt) = .next t :=
  ⟨⟨_, rfl⟩, ⟨_, rfl⟩, ⟨_, rfl⟩, ⟨_, rfl⟩⟩

theorem witness_EngineFrame :
    (∃ t, exec (.extract8 0) (engine 0 7 0 alt) = .next t) ∧
    (∃ t, exec .extract16 (engine 0 15 0 alt) = .next t) ∧
    (∃ t, exec (.pack8 1) (engine 0 7 1 alt) = .next t) ∧
    ∃ t, exec .pack16 (engine 0 15 1 alt) = .next t :=
  ⟨⟨_, rfl⟩, ⟨_, rfl⟩, ⟨_, rfl⟩, ⟨_, rfl⟩⟩

/-- Both sides of the stop: a field just inside and one just outside, for each window. -/
theorem witness_EngineStopsExactlyWithoutDescOK :
    windowOk 1 63 63 = true ∧ windowOk 1 64 64 = false ∧ windowOk 2 55 55 = true ∧
    windowOk 2 56 56 = false ∧ windowOk 2 0 15 = true ∧ windowOk 2 0 16 = false ∧
    windowOk 1 5 5 = true ∧ windowOk 1 5 4 = false := by decide

theorem witness_ExtractReadsPayloadField :
    windowOk 1 (engine 60 63 0 seq).dp.startBit (engine 60 63 0 seq).dp.endBit = true ∧
    windowFit 1 (engine 60 63 0 seq).dp.startBit (engine 60 63 0 seq).dp.endBit = true ∧
    windowOk 2 (engine 48 63 0 seq).dp.startBit (engine 48 63 0 seq).dp.endBit = true ∧
    windowFit 2 (engine 48 63 0 seq).dp.startBit (engine 48 63 0 seq).dp.endBit = true := by decide

theorem witness_PackWritesPayloadField :
    windowOk 1 (engine 4 7 0xF alt).dp.startBit (engine 4 7 0xF alt).dp.endBit = true ∧
    windowFit 1 (engine 4 7 0xF alt).dp.startBit (engine 4 7 0xF alt).dp.endBit = true ∧
    (engine 4 7 0xF alt).dp.value.toNat < 2 ^ (7 - 4 + 1) ∧
    windowOk 2 (engine 12 19 0xFF alt).dp.startBit (engine 12 19 0xFF alt).dp.endBit = true ∧
    windowFit 2 (engine 12 19 0xFF alt).dp.startBit (engine 12 19 0xFF alt).dp.endBit = true ∧
    (engine 12 19 0xFF alt).dp.value.toNat < 2 ^ (19 - 12 + 1) := by decide

theorem witness_PackThenExtractRoundTrip :
    windowOk 1 (engine 56 63 0xFF alt).dp.startBit (engine 56 63 0xFF alt).dp.endBit = true ∧
    windowFit 1 (engine 56 63 0xFF alt).dp.startBit (engine 56 63 0xFF alt).dp.endBit = true ∧
    (engine 56 63 0xFF alt).dp.value.toNat < 2 ^ (63 - 56 + 1) ∧
    windowOk 2 (engine 0 15 0xFFFF alt).dp.startBit (engine 0 15 0xFFFF alt).dp.endBit = true ∧
    windowFit 2 (engine 0 15 0xFFFF alt).dp.startBit (engine 0 15 0xFFFF alt).dp.endBit = true ∧
    (engine 0 15 0xFFFF alt).dp.value.toNat < 2 ^ (15 - 0 + 1) := by decide

theorem witness_PackBitsInAllCases :
    windowOk 1 (engine 63 78 0xFFFF alt).dp.startBit (engine 63 78 0xFFFF alt).dp.endBit = true ∧
    windowOk 2 (engine 55 70 0xFFFF alt).dp.startBit (engine 55 70 0xFFFF alt).dp.endBit = true := by
  decide

theorem witness_PackIsIdempotent :
    (∃ t, exec (.pack8 1) (engine 8 11 0x1F alt) = .next t) ∧
    ∃ t, exec .pack16 (engine 7 22 0xFFFF alt) = .next t := ⟨⟨_, rfl⟩, ⟨_, rfl⟩⟩

theorem witness_WindowSizesAgree :
    windowOk 1 (engine 48 55 0 alt).dp.startBit (engine 48 55 0 alt).dp.endBit = true ∧
    windowOk 2 (engine 48 55 0 alt).dp.startBit (engine 48 55 0 alt).dp.endBit = true ∧
    windowFit 1 (engine 48 55 0 alt).dp.startBit (engine 48 55 0 alt).dp.endBit = true := by decide

theorem witness_NotReadyDecoderOnlyReports :
    { decoderS with decReady := false }.decReady = false ∧ State.reset.decReady = false := by decide

theorem decoderS_tableOk : decoderS.TableOk := by unfold State.TableOk; decide

/-- A ready decoder, and one that is not ready. -/
theorem witness_ProcessFrameEmitsTableOrderEvents :
    (decoderS.decReady = true → decoderS.dtStale = false ∧ decoderS.TableOk) ∧
    decoderS.decReady = true ∧ 0 < decoderS.dtLen.toNat ∧
    (State.reset.decReady = true → State.reset.dtStale = false ∧ State.reset.TableOk) ∧
    State.reset.decReady = false :=
  ⟨fun _ => ⟨by decide, decoderS_tableOk⟩, by decide, by decide, nofun, by decide⟩

theorem witness_UnmatchedFrameEmitsNothing :
    decoderS.decReady = true ∧ decoderS.dtStale = false ∧
    ∀ i < decoderS.dtLen.toNat, (decoderS.descriptor i).frameId ≠ (⟨0x7FF, 8, alt⟩ : Frame).id := by
  decide

theorem witness_ProcessFrameOnlyAppendsEvents :
    (∃ t, exec (.processFrame frameD17) decoderS = .next t) ∧
    ∃ t, exec (.processFrame frameD17) State.reset = .next t := ⟨⟨_, rfl⟩, ⟨_, rfl⟩⟩

/-- Descriptor 1 is too short for `dlc` = 2, descriptor 2 of unsupported type. -/
theorem witness_SkippedDescriptorLeavesSiblings :
    decoderS.decReady = true ∧ decoderS.dtStale = false ∧ decoderS.TableOk ∧
    (1 < decoderS.dtLen.toNat ∧ (decoderS.descriptor 1).frameId = 0x300 ∧
      (2 : BitVec 4).toNat * 8 < (decoderS.descriptor 1).endBit.toNat) ∧
    (2 < decoderS.dtLen.toNat ∧ (decoderS.descriptor 2).frameId = 0x300 ∧
      (decoderS.descriptor 2).type = .unsupported) :=
  ⟨by decide, by decide, decoderS_tableOk, by decide, by decide⟩

theorem witness_DecoderIgnoresEncoderState :
    let t := { decoderS with encReady := true, lbLen := 1, lb := [(0, ⟨0x300, 8, alt⟩)] }
    decoderS.decReady = t.decReady ∧ decoderS.decLogEn = t.decLogEn ∧ decoderS.cbEn = t.cbEn ∧
    decoderS.dtLen = t.dtLen ∧ decoderS.dt = t.dt ∧ decoderS.dtStale = t.dtStale ∧
    decoderS ≠ t := by decide

/-- A ready decoder whose only descriptor has no place in the mask table. -/
def brokenS : State := encoding [(0, desc 0x300 9 0x41 5 4 0 255 .u8)] 1 [(0, ⟨0x300, 8, alt⟩)] 1

theorem witness_ProcessFrameStops :
    ({ decoderS with dtStale := true }.decReady = true ∧
      { decoderS with dtStale := true }.dtStale = true) ∧
    brokenS.decReady = true ∧ brokenS.dtStale = false ∧ ∃ i < brokenS.dtLen.toNat,
      (brokenS.descriptor i).frameId = frameD17.id ∧
      ¬ frameD17.dlc.toNat * 8 < (brokenS.descriptor i).endBit.toNat ∧
      DescOK (brokenS.descriptor i) = false := by decide

theorem witness_UnknownSignalIsReported :
    encoderS.dtStale = false ∧
    ∀ i < encoderS.dtLen.toNat, (encoderS.descriptor i).name ≠ 0x65706F4E := by decide

/-- Descriptor 0 is the first of the name "Speed", buffer 0 the first of its frame. -/
theorem encoderS_speed :
    FirstIndex (fun k => (encoderS.descriptor k).name = speedName) encoderS.dtLen.toNat 0 ∧
    FirstIndex (fun k => (encoderS.buffer k).id = (encoderS.descriptor 0).frameId)
      encoderS.lbLen.toNat 0 :=
  ⟨⟨by decide, by decide, by decide⟩, ⟨by decide, by decide, by decide⟩⟩

/-- Descriptor 1 is the first of the name "Rpm", buffer 1 the first of its frame. -/
theorem encoderS_rpm :
    FirstIndex (fun k => (encoderS.descriptor k).name = rpmName) encoderS.dtLen.toNat 1 ∧
    FirstIndex (fun k => (encoderS.buffer k).id = (encoderS.descriptor 1).frameId)
      encoderS.lbLen.toNat 1 :=
  ⟨⟨by decide, by decide, by decide⟩, ⟨by decide, by decide, by decide⟩⟩

/-- Descriptor 2 is the first of the name "Door", buffer 1 the first of its frame. -/
theorem encoderS_door :
    FirstIndex (fun k => (encoderS.descriptor k).name = doorName) encoderS.dtLen.toNat 2 ∧
    FirstIndex (fun k => (encoderS.buffer k).id = (encoderS.descriptor 2).frameId)
      encoderS.lbLen.toNat 1 :=
  ⟨⟨by decide, by decide, by decide⟩, ⟨by decide, by decide, by decide⟩⟩

theorem witness_MissingBufferIsReported :
    encoderS.dtStale = false ∧
    FirstIndex (fun k => (encoderS.descriptor k).name = 0x47) encoderS.dtLen.toNat 3 ∧
    ∀ j < encoderS.lbLen.toNat, (encoderS.buffer j).id ≠ (encoderS.descriptor 3).frameId :=
  ⟨by decide, ⟨by decide, by decide, by decide⟩, by decide⟩

/-- Value 201 is just above the maximum of "Speed" (V-E2). -/
theorem witness_InvalidSendIsRejected :
    encoderS.dtStale = false ∧
    FirstIndex (fun k => (encoderS.descriptor k).name = speedName) encoderS.dtLen.toNat 0 ∧
    FirstIndex (fun k => (encoderS.buffer k).id = (encoderS.descriptor 0).frameId)
      encoderS.lbLen.toNat 0 ∧
    ¬ (encoderS.encReady = true ∧ encoderS.TypeAccepted .u8 (encoderS.descriptor 0).type ∧
      (encoderS.descriptor 0).min.toNat ≤ (specSendValue .u8 201).toNat ∧
      (specSendValue .u8 201).toNat ≤ (encoderS.descriptor 0).max.toNat) :=
  ⟨by decide, encoderS_speed.1, encoderS_speed.2, fun h => absurd h.2.2.2 (by decide)⟩

/-- The maximum of each of the three signals, sent by its own entry point (with the operand bits
above the width set for Bool). -/
theorem witness_ValidSendPacksAndTransmits :
    (encoderS.dtStale = false ∧ encoderS.encReady = true ∧
      encoderS.TypeAccepted .u8 (encoderS.descriptor 0).type ∧
      (encoderS.descriptor 0).min.toNat ≤ (specSendValue .u8 200).toNat ∧
      (specSendValue .u8 200).toNat ≤ (encoderS.descriptor 0).max.toNat ∧
      DescOK (encoderS.descriptor 0) = true) ∧
    (encoderS.TypeAccepted .u16 (encoderS.descriptor 1).type ∧
      (encoderS.descriptor 1).min.toNat ≤ (specSendValue .u16 4000).toNat ∧
      (specSendValue .u16 4000).toNat ≤ (encoderS.descriptor 1).max.toNat ∧
      DescOK (encoderS.descriptor 1) = true) ∧
    (encoderS.TypeAccepted .bool (encoderS.descriptor 2).type ∧
      (encoderS.descriptor 2).min.toNat ≤ (specSendValue .bool 0xFFFF).toNat ∧
      (specSendValue .bool 0xFFFF).toNat ≤ (encoderS.descriptor 2).max.toNat ∧
      DescOK (encoderS.descriptor 2) = true) := by unfold State.TypeAccepted; decide

/-- The three lookups of the witness above. -/
theorem witness_ValidSendPacksAndTransmits_lookups :
    (FirstIndex (fun k => (encoderS.descriptor k).name = speedName) encoderS.dtLen.toNat 0 ∧
      FirstIndex (fun k => (encoderS.buffer k).id = (encoderS.descriptor 0).frameId)
        encoderS.lbLen.toNat 0) ∧
    (FirstIndex (fun k => (encoderS.descriptor k).name = rpmName) encoderS.dtLen.toNat 1 ∧
      FirstIndex (fun k => (encoderS.buffer k).id = (encoderS.descriptor 1).frameId)
        encoderS.lbLen.toNat 1) ∧
    (FirstIndex (fun k => (encoderS.descriptor k).name = doorName) encoderS.dtLen.toNat 2 ∧
      FirstIndex (fun k => (encoderS.buffer k).id = (encoderS.descriptor 2).frameId)
        encoderS.lbLen.toNat 1) := ⟨encoderS_speed, encoderS_rpm, encoderS_door⟩

/-- One send of each entry point that gives a next state, and one byte each side of a window. -/
theorem witness_SendFrame :
    (∃ t, exec (sendInstr .bool doorName 1) encoderS = .next t) ∧
    (∃ t, exec (sendInstr .u8 speedName 42) encoderS = .next t) ∧
    (∃ t, exec (sendInstr .u16 rpmName 0xABC) encoderS = .next t) ∧
    SendStoresByte encoderS speedName 0 1 ∧ SendStoresByte encoderS rpmName 1 1 :=
  ⟨⟨_, rfl⟩, ⟨_, rfl⟩, ⟨_, rfl⟩,
   ⟨0, encoderS_speed.1, encoderS_speed.2, by decide, by decide⟩,
   ⟨1, encoderS_rpm.1, encoderS_rpm.2, by decide, by decide⟩⟩

/-- A send with the log enabled, and one with it disabled. -/
theorem witness_SendAppendsOneEvent :
    (∃ t, exec (sendInstr .u8 speedName 201) encoderS = .next t) ∧ encoderS.encLogEn = true ∧
    (∃ t, exec (sendInstr .u8 speedName 201) State.reset = .next t) ∧
    State.reset.encLogEn = false := ⟨⟨_, rfl⟩, by decide, ⟨_, rfl⟩, by decide⟩

/-- A send that transmits (V-E1). -/
theorem witness_transmitting_send :
    ∃ t, exec (sendInstr .u8 speedName 42) encoderS = .next t ∧ t.out = encoderS.out ++
      [.tx ⟨0x400, 8, #v[0xAA, 0x2A, 0xAA, 0x55, 0xAA, 0x55, 0xAA, 0x55]⟩] :=
  ⟨_, rfl, by decide⟩

theorem witness_TransmitCarriesTheBuffer :
    ∃ t, exec (sendInstr .u8 speedName 42) encoderS = .next t ∧ t.out = encoderS.out ++
      [.tx ⟨0x400, 8, #v[0xAA, 0x2A, 0xAA, 0x55, 0xAA, 0x55, 0xAA, 0x55]⟩] :=
  witness_transmitting_send

/-- A transmitting send under each policy: V-E1, and V-E11 under `reference`. -/
theorem witness_TransmitRespectsTypePolicy :
    (∃ t, exec (sendInstr .u8 speedName 42) encoderS = .next t ∧ t.out = encoderS.out ++
      [.tx ⟨0x400, 8, #v[0xAA, 0x2A, 0xAA, 0x55, 0xAA, 0x55, 0xAA, 0x55]⟩]) ∧
    encoderS.policy = .fixed ∧
    (∃ t, exec (sendInstr .u16 speedName 150) { encoderS with policy := .reference } = .next t ∧
      t.out = { encoderS with policy := .reference }.out ++
        [.tx ⟨0x400, 8, #v[0xAA, 0x96, 0xAA, 0x55, 0xAA, 0x55, 0xAA, 0x55]⟩]) ∧
    { encoderS with policy := .reference }.policy = .reference :=
  ⟨witness_transmitting_send, by decide, ⟨_, rfl, by decide⟩, by decide⟩

theorem witness_SuccessfulSendWritesTheField :
    (∃ t, exec (sendInstr .u8 speedName 42) encoderS = .next t ∧ t.out = encoderS.out ++
      [.tx ⟨0x400, 8, #v[0xAA, 0x2A, 0xAA, 0x55, 0xAA, 0x55, 0xAA, 0x55]⟩]) ∧
    FirstIndex (fun k => (encoderS.descriptor k).name = speedName) encoderS.dtLen.toNat 0 ∧
    DescFit (encoderS.descriptor 0) = true ∧
    (specSendValue .u8 42).toNat < 2 ^ ((encoderS.descriptor 0).endBit.toNat -
      (encoderS.descriptor 0).startBit.toNat + 1) :=
  ⟨witness_transmitting_send, encoderS_speed.1, by decide, by decide⟩

theorem witness_NotReadyEncoderNeverTransmits :
    { encoderS with encReady := false }.encReady = false ∧
    ∃ t, exec (sendInstr .u8 speedName 42) { encoderS with encReady := false } = .next t :=
  ⟨by decide, ⟨_, rfl⟩⟩

/-- V-E6: 0xFFFE is `false`, 0xFFFF is `true`, 0x012A is 42. -/
theorem witness_SendIgnoresOperandBitsAboveWidth :
    (0xFFFE : Half).toNat % 2 = (0 : Half).toNat % 2 ∧
    (0xFFFF : Half).toNat % 2 = (1 : Half).toNat % 2 ∧
    (0x012A : Half).toNat % 256 = (42 : Half).toNat % 256 := by decide

/-- Both stops of a send can arise. -/
theorem witness_SendStops :
    { encoderS with dtStale := true }.dtStale = true ∧ brokenS.dtStale = false ∧
    FirstIndex (fun k => (brokenS.descriptor k).name = 0x41) brokenS.dtLen.toNat 0 ∧
    FirstIndex (fun k => (brokenS.buffer k).id = (brokenS.descriptor 0).frameId)
      brokenS.lbLen.toNat 0 ∧
    brokenS.encReady = true ∧ brokenS.TypeAccepted .u8 (brokenS.descriptor 0).type ∧
    (brokenS.descriptor 0).min.toNat ≤ (specSendValue .u8 255).toNat ∧
    (specSendValue .u8 255).toNat ≤ (brokenS.descriptor 0).max.toNat ∧
    DescOK (brokenS.descriptor 0) = false :=
  ⟨by decide, by decide, ⟨by decide, by decide, by decide⟩, ⟨by decide, by decide, by decide⟩,
   by decide, .inl (by decide), by decide, by decide, by decide⟩

theorem witness_EveryCommandCompletes :
    isCommand (.sendU8 speedName 42) = true ∧ encoderS.TableOk ∧ encoderS.dtStale = false :=
  ⟨by decide, by unfold State.TableOk; decide, by decide⟩

theorem witness_OnlyInitWritesControlFields :
    (∃ t, exec (.processFrame frameD17) decoderS = .next t) ∧
    (∀ tbl log cb len, Instr.processFrame frameD17 ≠ .initDec tbl log cb len) ∧
    ∀ lb log tx len, Instr.processFrame frameD17 ≠ .initEnc lb log tx len :=
  ⟨⟨_, rfl⟩, fun _ _ _ _ => nofun, fun _ _ _ _ => nofun⟩

theorem witness_BlockNeverWritesTableOrIdentifiers :
    ∃ t, exec (.sendU16 rpmName 4000) encoderS = .next t := ⟨_, rfl⟩

theorem witness_StreamGrowsWithWarnings :
    ∃ t, exec (.sendU16 rpmName 4001) encoderS = .next t := ⟨_, rfl⟩

theorem witness_ReportedSendChangesNothing :
    ∃ t, exec (sendInstr .u8 speedName 201) encoderS = .next t ∧
      t.out = encoderS.out ++ [.rpt .warning (.encReject 0 201 .u8)] := ⟨_, rfl, by decide⟩

theorem witness_ResetActionPutsResetValues :
    (pending encoderS [.reset, .command 7 0]).dp.request = none ∧
    (pending encoderS [.reset, .command 7 0]).port = .reset :: [.command 7 0] := by decide

/-- After reset, a frame, a send and a reserved code pending, then an INIT. -/
theorem witness_SilentUntilInitialised :
    let cs : List (Byte × ArgWord) := [(0x02, 1), (0x05, 2), (0xFF, 3)]
    let s := pending State.reset (cs.map (fun c => HostAction.command c.1 c.2) ++ [.command 0 7])
    s.decReady = false ∧ s.decLogEn = false ∧ s.encLogEn = false ∧ s.dtLen = 0 ∧
    s.dtStale = false ∧ s.dp.request = none ∧ (∀ c ∈ cs, c.1 ≠ 0x00#8 ∧ c.1 ≠ 0x01#8) ∧
    s.port = cs.map (fun c => HostAction.command c.1 c.2) ++ [.command 0 7] :=
  ⟨rfl, rfl, rfl, rfl, rfl, rfl, by simp, rfl⟩

/-- The last index below the capacity, and the first beyond it, for each table. -/
theorem witness_HostWritesReadBack :
    (pending encoderS [.writeBuffer 65534 frameD17]).dp.request = none ∧
    (pending encoderS [.writeBuffer 65534 frameD17]).port = .writeBuffer 65534 frameD17 :: [] ∧
    (65534 : Len).toNat < 65535 ∧
    (pending encoderS [.writeBuffer 65535 frameD17]).port = .writeBuffer 65535 frameD17 :: [] ∧
    (65535 : Len).toNat = 65535 ∧
    (pending encoderS [.writeDescriptor 3 speedDesc]).port = .writeDescriptor 3 speedDesc :: [] ∧
    (3 : Len).toNat < encoderS.dtLen.toNat ∧
    (pending encoderS [.writeDescriptor 65535 speedDesc]).port =
      .writeDescriptor 65535 speedDesc :: [] :=
  ⟨rfl, rfl, by simp, rfl, rfl, rfl, by decide, rfl⟩

theorem witness_IdleBlockKeepsItsState :
    encoderS.dp.request = none ∧ encoderS.port = [] := by decide

/-- A ready encoder with a send pending: the invariant holds and the step gives a next state. -/
theorem witness_StepKeepsInvariant :
    (pending encoderS [.command 0x05 0x6465657053002A]).Inv ∧
    ∃ t, step (pending encoderS [.command 0x05 0x6465657053002A]) = .next t :=
  ⟨⟨by decide, by decide, by decide, by decide, by decide, by decide⟩, ⟨_, rfl⟩⟩

end Sys2Proof.Tests
end

namespace Sys2Proof.Machine

/-! What a step runs, for each of the two sources an instruction is fetched from (R60, R93). -/

theorem step_of_fetch_run {s s' : State} {word : FetchWord} (h : s.fetch = .run word s') :
    step s = exec (decodeFetch word) s' := by
  simp only [step, h]

theorem step_of_request {s : State} {ctx : EngineCtx} {sel : BitVec 2}
    (h : s.dp.request = some (ctx, sel)) :
    step s = exec (decodeSelector ctx sel) s.takeRequest :=
  step_of_fetch_run (State.fetch_of_request h)

theorem step_of_command {s : State} {op : Byte} {arg : ArgWord} {rest : List HostAction}
    (hr : s.dp.request = none) (hp : s.port = .command op arg :: rest) :
    step s = exec (decodeCommand op arg) (s.withPort rest) :=
  step_of_fetch_run (State.fetch_of_command hr hp)

/-- Settles O1: one lemma for each source of the instruction. -/
theorem stepRunsDecodedInstruction : Obligations.StepRunsDecodedInstruction := by
  unfold Obligations.StepRunsDecodedInstruction
  intro s
  constructor
  · intro ctx sel h
    exact step_of_request h
  · intro op arg rest hr hp
    exact step_of_command hr hp

end Sys2Proof.Machine

namespace Sys2Proof.Machine

/-! What a step runs when the host's oldest action is a table write (R60). -/

theorem step_of_writeBuffer {s : State} {j : Len} {f : Frame} {rest : List HostAction}
    (hr : s.dp.request = none) (hp : s.port = .writeBuffer j f :: rest) :
    step s = hostFillBuffer j f (s.withPort rest) := by
  simp only [step, State.fetch, hr, hp]

theorem step_of_writeDescriptor {s : State} {i : Len} {d : Descriptor} {rest : List HostAction}
    (hr : s.dp.request = none) (hp : s.port = .writeDescriptor i d :: rest) :
    step s = hostLoadDescriptor i d (s.withPort rest) := by
  simp only [step, State.fetch, hr, hp]

/-! A silent block: nothing initialised, so nothing to say (R33, R141, R171, R251). -/

/-- What a block has from reset until an INIT command, as far as the other commands read it: no ready
decoder, no log to report to, no descriptor in use. -/
structure State.Silent (s : State) : Prop where
  decReady : s.decReady = false
  decLogEn : s.decLogEn = false
  encLogEn : s.encLogEn = false
  dtLen : s.dtLen = 0
  dtStale : s.dtStale = false

theorem State.Silent.withPort {s : State} (hs : s.Silent) (rest : List HostAction) :
    (s.withPort rest).Silent :=
  ⟨hs.decReady, hs.decLogEn, hs.encLogEn, hs.dtLen, hs.dtStale⟩

/-- The decoder is not ready, and its report is gated (R141, R221). -/
theorem execProcessFrame_of_silent {s : State} (hs : s.Silent) (f : Frame) :
    execProcessFrame f s = .next s := by
  simp [execProcessFrame, hs.decReady, hs.decLogEn, State.emit_nil]

/-- No descriptor in use has the name, and the report is gated (R171, R221). -/
theorem sendCommon_of_silent {s : State} (hs : s.Silent) (e : EntryPoint) (name : Name) (v : Half) :
    sendCommon e name v s = .next s := by
  have hname : findName s name = none := findName_eq_none.mpr (by simp [hs.dtLen])
  simp [sendCommon, hs.dtStale, hname, hs.encLogEn, State.emit_nil]

/-- Every command byte other than those of the two INITs changes nothing in a silent block. -/
theorem exec_decodeCommand_of_silent {s : State} (hs : s.Silent) {op : Byte}
    (hdec : op ≠ 0x00#8) (henc : op ≠ 0x01#8) (arg : ArgWord) :
    exec (decodeCommand op arg) s = .next s := by
  unfold decodeCommand
  rw [if_neg hdec, if_neg henc]
  split
  · exact execProcessFrame_of_silent hs _
  split
  · exact sendCommon_of_silent hs .bool _ _
  split
  · exact sendCommon_of_silent hs .u8 _ _
  split
  · exact sendCommon_of_silent hs .u16 _ _
  split
  · rfl
  · rfl

theorem step_of_silent {s : State} (hs : s.Silent) (hr : s.dp.request = none) {op : Byte}
    {arg : ArgWord} {rest : List HostAction} (hp : s.port = .command op arg :: rest)
    (hdec : op ≠ 0x00#8) (henc : op ≠ 0x01#8) : step s = .next (s.withPort rest) := by
  rw [step_of_command hr hp]
  exact exec_decodeCommand_of_silent (hs.withPort rest) hdec henc arg

theorem core_run_succ {s t : State} (h : step s = .next t) (k : Nat) :
    Host.Core.run Sys2Proof.core (k + 1) s = Host.Core.run Sys2Proof.core k t := by
  have hstep : Sys2Proof.core.step s = .next t := h
  simp only [Host.Core.run, hstep]

/-- The commands are taken one by one: the rest of the run starts in a silent block again. -/
theorem run_of_silent {s : State} (hs : s.Silent) (hr : s.dp.request = none)
    (cs : List (Byte × ArgWord)) (rest : List HostAction)
    (hcs : ∀ c ∈ cs, c.1 ≠ 0x00#8 ∧ c.1 ≠ 0x01#8)
    (hp : s.port = cs.map (fun c => HostAction.command c.1 c.2) ++ rest) :
    Host.Core.run Sys2Proof.core cs.length s = .next (s.withPort rest) := by
  induction cs generalizing s with
  | nil =>
    have hport : s.port = rest := hp
    subst hport
    rfl
  | cons c cs ih =>
    obtain ⟨⟨hdec, henc⟩, hcs'⟩ := List.forall_mem_cons.mp hcs
    rw [List.length_cons, core_run_succ (step_of_silent hs hr hp hdec henc)]
    exact ih (hs.withPort _) hr hcs' rfl

/-- Settles O55, by induction over the pending commands. -/
theorem silentUntilInitialised : Obligations.SilentUntilInitialised := by
  unfold Obligations.SilentUntilInitialised
  intro s cs rest hready hdecLog hencLog hlen hstale hr hcs hp
  exact run_of_silent ⟨hready, hdecLog, hencLog, hlen, hstale⟩ hr cs rest hcs hp

/-! The invariant of the machine (R25, R26, R50, R201). -/

/-- Settles O58: both tables are empty and no component is ready. -/
theorem resetMeetsInvariant : Obligations.ResetMeetsInvariant where
  dtWf := rfl
  lbWf := rfl
  decLog := nofun
  encLog := nofun
  encLen := nofun
  stale := nofun

/-! The invariant reads neither the stream nor the results, the port, the policy or the datapath. -/

theorem State.Inv.emit {s : State} (hi : s.Inv) (es : List Event) : (s.emit es).Inv :=
  { hi with }

theorem State.Inv.withDp {s : State} (hi : s.Inv) (dp : Datapath) : { s with dp := dp }.Inv :=
  { hi with }

theorem State.Inv.takeRequest {s : State} (hi : s.Inv) : s.takeRequest.Inv := hi.withDp _

theorem State.Inv.withPort {s : State} (hi : s.Inv) (rest : List HostAction) :
    (s.withPort rest).Inv :=
  { hi with }
theorem State.Inv.giveResult {s : State} (hi : s.Inv) (ok : Bool) : (s.giveResult ok).Inv :=
  { hi with }

/-! What writes a field the invariant reads. -/

theorem State.Inv.withDecConfig {s : State} (hi : s.Inv) (tbl log : Bool) (cb : BitVec 3)
    (len : Len) :
    { s with dtLen := len, decLogEn := log, cbEn := cb, decReady := tbl && log,
             dtStale := false }.Inv :=
  { hi with decLog := fun h => (Bool.and_eq_true_iff.mp h).2, stale := nofun }

theorem State.Inv.withEncConfig {s : State} (hi : s.Inv) (lb log tx : Bool) (len : Len) :
    { s with lbLen := if lb then len else 0, encLogEn := log,
             encReady := lb && (len != 0) && log && tx }.Inv :=
  have hready (h : (lb && (len != 0) && log && tx) = true) : lb = true ∧ len ≠ 0 ∧ log = true := by
    simp_all
  { hi with
    encLog := fun h => (hready h).2.2
    encLen := fun h => by
      obtain ⟨hlb, hlen, -⟩ := hready h
      simpa [hlb] using hlen }

theorem State.Inv.loadDescriptor {s : State} (hi : s.Inv) {i : Len} (h : i.toNat < Config.nMax)
    (d : Descriptor) :
    { s with dt := s.dt.write i.toNat d,
             dtStale := s.dtStale || decide (i.toNat < s.dtLen.toNat) }.Inv :=
  { hi with
    dtWf := Memory.wf_write s.dt d hi.dtWf h
    stale := by
      intro hmark
      rcases Bool.or_eq_true_iff.mp hmark with hold | huse
      · exact hi.stale hold
      · rintro (hlen : s.dtLen = 0)
        have hlt : i.toNat < s.dtLen.toNat := of_decide_eq_true huse
        simp [hlen] at hlt }

theorem State.Inv.fillBuffer {s : State} (hi : s.Inv) {j : Nat} (h : j < Config.mMax) (f : Frame) :
    { s with lb := s.lb.write j f }.Inv :=
  { hi with lbWf := Memory.wf_write s.lb f hi.lbWf h }

/-- A reset leaves both tables and makes everything else the invariant reads 0. -/
theorem State.Inv.applyReset {s : State} (hi : s.Inv) (port : List HostAction) :
    { State.reset with policy := s.policy, dt := s.dt, lb := s.lb, port := port }.Inv :=
  { resetMeetsInvariant with dtWf := hi.dtWf, lbWf := hi.lbWf }

/-- A buffer in use is below the capacity of LB (R5, R50). -/
theorem lt_mMax_of_lt_lbLen {s : State} {j : Nat} (h : j < s.lbLen.toNat) : j < Config.mMax := by
  have := s.lbLen.isLt
  unfold Config.mMax
  omega

theorem exec_keeps_inv {i : Instr} {s t : State} (hi : s.Inv) (h : exec i s = .next t) : t.Inv := by
  rcases exec_next h with ⟨tbl, log, cb, len, -, rfl⟩ | ⟨lb, log, tx, len, -, rfl⟩ | ⟨es, rfl⟩ |
    ⟨j, data, hj, -, rfl⟩ | ⟨dp, rfl⟩
  · exact (hi.withDecConfig tbl log cb _).giveResult _
  · exact (hi.withEncConfig lb log tx len).giveResult _
  · exact hi.emit es
  · exact (hi.fillBuffer (lt_mMax_of_lt_lbLen hj) _).emit _
  · exact hi.withDp dp

/-- Settles O59, by what a step can do: idle, an instruction, a host write, or the reset. -/
theorem stepKeepsInvariant : Obligations.StepKeepsInvariant := by
  unfold Obligations.StepKeepsInvariant
  intro s t hi h
  rcases step_next h with rfl | ⟨i, s', hs', hexec⟩ | ⟨i, d, rest, hlt, rfl⟩ |
    ⟨j, f, rest, hlt, rfl⟩ | ⟨rest, rfl⟩
  · exact hi
  · rcases hs' with rfl | ⟨rest, rfl⟩
    · exact exec_keeps_inv hi.takeRequest hexec
    · exact exec_keeps_inv (hi.withPort rest) hexec
  · exact (hi.withPort rest).loadDescriptor hlt d
  · exact (hi.withPort rest).fillBuffer hlt f
  · exact hi.applyReset rest

/-- Settles O53: each value is the one written in `State.reset`. -/
theorem resetValues : Obligations.ResetValues :=
  ⟨rfl, rfl, rfl, rfl, rfl, rfl, rfl, rfl⟩

/-! The host's writes between commands (R27, R50, R60, R63). -/

/-- What a live buffer reads as after an entry of LB is written. -/
theorem State.buffer_write (s : State) (j k : Nat) (f : Frame) :
    { s with lb := s.lb.write j f }.buffer k = if k = j then f else s.buffer k := by
  simp only [State.buffer, Memory.find?_write]
  split <;> rfl

/-- What a descriptor reads as after an entry of DT is written. -/
theorem State.descriptor_write (s : State) (i k : Nat) (d : Descriptor) (stale : Bool) :
    { s with dt := s.dt.write i d, dtStale := stale }.descriptor k =
      if k = i then d else s.descriptor k := by
  simp only [State.descriptor, Memory.find?_write]
  split <;> rfl

theorem hostFillBuffer_of_lt {j : Len} (f : Frame) (s : State) (h : j.toNat < 65535) :
    hostFillBuffer j f s = .next { s with lb := s.lb.write j.toNat f } :=
  if_pos h

theorem hostFillBuffer_at_capacity {j : Len} (f : Frame) (s : State) (h : j.toNat = 65535) :
    hostFillBuffer j f s = .fault .noSuchEntry :=
  if_neg (Nat.not_lt_of_le h.ge)

theorem hostLoadDescriptor_of_lt {i : Len} (d : Descriptor) (s : State) (h : i.toNat < 65535) :
    hostLoadDescriptor i d s = .next { s with
      dt := s.dt.write i.toNat d
      dtStale := s.dtStale || decide (i.toNat < s.dtLen.toNat) } :=
  if_pos h

theorem hostLoadDescriptor_at_capacity {i : Len} (d : Descriptor) (s : State)
    (h : i.toNat = 65535) : hostLoadDescriptor i d s = .fault .noSuchEntry :=
  if_neg (Nat.not_lt_of_le h.ge)

/-- Settles O56, for each table below its capacity and at it. -/
theorem hostWritesReadBack : Obligations.HostWritesReadBack := by
  unfold Obligations.HostWritesReadBack
  intro s rest hr
  constructor
  · intro j f hp
    rw [step_of_writeBuffer hr hp]
    constructor
    · intro hj
      refine ⟨_, hostFillBuffer_of_lt f _ hj, rfl, ?_, fun k hk => ?_⟩
      · rw [State.buffer_write, if_pos rfl]
      · rw [State.buffer_write, if_neg hk, State.withPort_buffer]
    · exact hostFillBuffer_at_capacity f _
  · intro i d hp
    rw [step_of_writeDescriptor hr hp]
    constructor
    · intro hi
      refine ⟨_, hostLoadDescriptor_of_lt d _ hi, rfl,
        Bool.or_eq_true_iff.trans (or_congr_right decide_eq_true_iff), ?_, fun k hk => ?_⟩
      · rw [State.descriptor_write, if_pos rfl]
      · rw [State.descriptor_write, if_neg hk, State.withPort_descriptor]
    · exact hostLoadDescriptor_at_capacity d _

/-! The engine operations on the datapath (R112 to R115). -/

theorem execExtract8_next {b : BitVec 1} {s t : State} (h : exec (.extract8 b) s = .next t) :
    ∃ g win, window8 s.dp.startBit s.dp.endBit s.dp.payload = some (g, win) ∧
      t = { s with dp := { s.dp.latch g (win.setWidth 16) with raw := field8 g win } } := by
  simp only [exec, execExtract8] at h
  split at h
  · cases h
  · cases h; exact ⟨_, _, ‹_›, rfl⟩

theorem execExtract16_next {s t : State} (h : exec .extract16 s = .next t) :
    ∃ g win, window16 s.dp.startBit s.dp.endBit s.dp.payload = some (g, win) ∧
      t = { s with dp := { s.dp.latch g win with raw := field16 g win } } := by
  simp only [exec, execExtract16] at h
  split at h
  · cases h
  · cases h; exact ⟨_, _, ‹_›, rfl⟩

theorem execPack8_next {b : BitVec 1} {s t : State} (h : exec (.pack8 b) s = .next t) :
    ∃ g win, window8 s.dp.startBit s.dp.endBit s.dp.payload = some (g, win) ∧
      t = { s with dp := { s.dp.latch g (win.setWidth 16) with
        payload := memWrite8 s.dp.payload g.byteOffset (merge8 g s.dp.value win) } } := by
  simp only [exec, execPack8] at h
  split at h
  · cases h
  · cases h; exact ⟨_, _, ‹_›, rfl⟩

theorem execPack16_next {s t : State} (h : exec .pack16 s = .next t) :
    ∃ g win, window16 s.dp.startBit s.dp.endBit s.dp.payload = some (g, win) ∧
      t = { s with dp := { s.dp.latch g win with
        payload := memWrite16 s.dp.payload g.byteOffset (merge16 g s.dp.value win) } } := by
  simp only [exec, execPack16] at h
  split at h
  · cases h
  · cases h; exact ⟨_, _, ‹_›, rfl⟩

/-- Settles O19: every field an operation does not name is the one it had. -/
theorem engineFrame : Obligations.EngineFrame := by
  unfold Obligations.EngineFrame
  intro i s t h
  constructor
  · rintro (⟨b, rfl⟩ | rfl)
    · obtain ⟨g, win, -, rfl⟩ := execExtract8_next h
      rfl
    · obtain ⟨g, win, -, rfl⟩ := execExtract16_next h
      rfl
  · rintro (⟨b, rfl⟩ | rfl)
    · obtain ⟨g, win, -, rfl⟩ := execPack8_next h
      rfl
    · obtain ⟨g, win, -, rfl⟩ := execPack16_next h
      rfl

/-! What an instruction leaves unchanged (R22, R25 to R27, R170, R181, R204). -/

/-- Settles O49: `exec_next` names the fields each INIT writes. -/
theorem onlyInitWritesControlFields : Obligations.OnlyInitWritesControlFields := by
  unfold Obligations.OnlyInitWritesControlFields
  intro i s t h
  rcases exec_next h with ⟨tbl, log, cb, len, rfl, rfl⟩ | ⟨lb, log, tx, len, rfl, rfl⟩ |
    ⟨es, rfl⟩ | ⟨j, data, -, -, rfl⟩ | ⟨dp, rfl⟩
  · exact ⟨fun hdec => (hdec _ _ _ _ rfl).elim, fun _ => ⟨rfl, rfl, rfl⟩,
      fun hdec => (hdec _ _ _ _ rfl).elim⟩
  · exact ⟨fun _ => ⟨rfl, rfl, rfl, rfl⟩, fun henc => (henc _ _ _ _ rfl).elim,
      fun _ henc => (henc _ _ _ _ rfl).elim⟩
  all_goals exact ⟨fun _ => ⟨rfl, rfl, rfl, rfl⟩, fun _ => ⟨rfl, rfl, rfl⟩, fun _ _ => rfl⟩

/-- A write of a live buffer's data keeps every identifier and dlc (R27). -/
theorem State.setBufferData_id_dlc (s : State) (j k : Nat) (data : Payload) :
    ((s.setBufferData j data).buffer k).id = (s.buffer k).id ∧
      ((s.setBufferData j data).buffer k).dlc = (s.buffer k).dlc := by
  rw [State.setBufferData_buffer]
  split
  · rename_i hk
    rw [hk]
    exact ⟨rfl, rfl⟩
  · exact ⟨rfl, rfl⟩

/-- Settles O50: only a send writes a table, and it writes the data of one live buffer. -/
theorem blockNeverWritesTableOrIdentifiers : Obligations.BlockNeverWritesTableOrIdentifiers := by
  unfold Obligations.BlockNeverWritesTableOrIdentifiers
  intro i s t h
  rcases exec_next h with ⟨tbl, log, cb, len, -, rfl⟩ | ⟨lb, log, tx, len, -, rfl⟩ | ⟨es, rfl⟩ |
    ⟨j, data, -, -, rfl⟩ | ⟨dp, rfl⟩
  case inr.inr.inr.inl => exact ⟨rfl, rfl, rfl, fun k => s.setBufferData_id_dlc j k data⟩
  all_goals exact ⟨rfl, rfl, rfl, fun _ => ⟨rfl, rfl⟩⟩

theorem exec_sendInstr (e : EntryPoint) (name : Name) (v : Half) (s : State) :
    exec (sendInstr e name v) s = sendCommon e name v s := by
  cases e <;> rfl

/-- A byte that a pack into buffer `j` changes is one that the send of the name may store to. -/
theorem setBufferData_getElem_of_not_stores {s : State} {name : Name} {v : Half} {i j k b : Nat}
    {data : Payload} (hname : findName s name = some i)
    (hbuf : findBuffer s (s.descriptor i).frameId = some j)
    (hpack : packFor (s.descriptor i) v (s.buffer j).data = some data) (hb : b < 8)
    (hout : ¬ SendStoresByte s name k b) :
    ((s.setBufferData j data).buffer k).data[b] = (s.buffer k).data[b] := by
  rw [State.setBufferData_buffer]
  split
  · rename_i hk
    subst hk
    exact packFor_getElem hpack hb fun ⟨hlo, hhi⟩ =>
      hout ⟨i, findName_eq_some.mp hname, findBuffer_eq_some.mp hbuf, hlo, hhi⟩
  · rfl

/-- Settles O39: a report only appends; a transmission packs into the buffer it found. -/
theorem sendFrame : Obligations.SendFrame := by
  unfold Obligations.SendFrame
  intro e name v s t h
  rw [exec_sendInstr] at h
  rcases sendCommon_cases e name v s with
    ⟨r, he⟩ | ⟨r, he⟩ | ⟨i, j, data, hname, hbuf, -, hpack, he⟩
  · rw [he] at h
    cases h
  · rw [he] at h
    cases h
    exact ⟨rfl, fun _ => rfl, fun _ => ⟨rfl, rfl, fun _ _ _ => rfl⟩⟩
  · rw [he] at h
    cases h
    refine ⟨rfl, fun _ => rfl, fun k => ?_⟩
    obtain ⟨hid, hdlc⟩ := s.setBufferData_id_dlc j k data
    exact ⟨hid, hdlc, fun b hb => setBufferData_getElem_of_not_stores hname hbuf hpack hb⟩

/-! The severity of reports (R91, R221). -/

/-- Every report among the events is a WARNING. -/
def OnlyWarnings (es : List Event) : Prop := ∀ sev r, Event.rpt sev r ∈ es → sev = .warning

theorem onlyWarnings_nil : OnlyWarnings [] := nofun

theorem OnlyWarnings.append {es fs : List Event} (he : OnlyWarnings es) (hf : OnlyWarnings fs) :
    OnlyWarnings (es ++ fs) := fun sev r hmem =>
  (List.mem_append.mp hmem).elim (he sev r) (hf sev r)

theorem onlyWarnings_raised (logEn : Bool) (r : Report) : OnlyWarnings (raised logEn r) := by
  cases logEn <;> simp [OnlyWarnings]

theorem onlyWarnings_tx (f : Frame) : OnlyWarnings [.tx f] := by
  simp [OnlyWarnings]

theorem onlyWarnings_callbackEvents (d : Descriptor) (raw : Half) :
    OnlyWarnings (callbackEvents d raw) := by
  unfold callbackEvents
  cases d.type <;> simp [OnlyWarnings]

theorem onlyWarnings_dispatchRaw (s : State) (i : Nat) (d : Descriptor) (raw : Half) :
    OnlyWarnings (dispatchRaw s i d raw) := by
  unfold dispatchRaw
  split
  · split
    · exact onlyWarnings_callbackEvents d raw
    · exact onlyWarnings_nil
  · exact onlyWarnings_raised _ _

theorem onlyWarnings_of_decodeEntry {s : State} {f : Frame} {i : Nat} {es : List Event}
    (h : decodeEntry s f i = .ok es) : OnlyWarnings es := by
  unfold decodeEntry at h
  dsimp only at h
  split at h
  · cases h; exact onlyWarnings_nil
  split at h
  · cases h; exact onlyWarnings_raised _ _
  split at h
  · cases h; exact onlyWarnings_raised _ _
  split at h
  · cases h
  · cases h; exact onlyWarnings_dispatchRaw _ _ _ _

theorem onlyWarnings_of_scanFrame {s : State} {f : Frame} {n i : Nat} {es : List Event}
    (h : scanFrame s f n i = .ok es) : OnlyWarnings es := by
  induction n generalizing i es with
  | zero => cases h; exact onlyWarnings_nil
  | succ n ih =>
    unfold scanFrame at h
    split at h
    · cases h
    · rename_i hentry
      split at h
      · cases h
      · rename_i hrest
        cases h
        exact (onlyWarnings_of_decodeEntry hentry).append (ih hrest)

theorem execProcessFrame_onlyWarnings {f : Frame} {s t : State}
    (h : execProcessFrame f s = .next t) : ∃ es, t = s.emit es ∧ OnlyWarnings es := by
  unfold execProcessFrame at h
  split at h
  · cases h; exact ⟨_, rfl, onlyWarnings_raised _ _⟩
  split at h
  · cases h
  split at h
  · cases h
  · rename_i hscan
    cases h
    exact ⟨_, rfl, onlyWarnings_of_scanFrame hscan⟩

/-- `t` has the stream of `s` with events appended, every report among them a WARNING. -/
def AppendsWarnings (s t : State) : Prop := ∃ es, t.out = s.out ++ es ∧ OnlyWarnings es

theorem appendsWarnings_of_out_eq {s t : State} (h : t.out = s.out) : AppendsWarnings s t :=
  ⟨[], by rw [h, List.append_nil], onlyWarnings_nil⟩

theorem sendCommon_appendsWarnings {e : EntryPoint} {name : Name} {v : Half} {s t : State}
    (h : sendCommon e name v s = .next t) : AppendsWarnings s t := by
  rcases sendCommon_next h with ⟨r, rfl⟩ | ⟨j, data, -, -, rfl⟩
  · exact ⟨_, rfl, onlyWarnings_raised _ _⟩
  · exact ⟨_, rfl, onlyWarnings_tx _⟩

/-- Settles O51, by the instructions: the reports come from the gated `raise` alone (R221). -/
theorem streamGrowsWithWarnings : Obligations.StreamGrowsWithWarnings := by
  unfold Obligations.StreamGrowsWithWarnings
  intro i s t h
  change AppendsWarnings s t
  cases i with
  | initDec tbl log cb len => cases h; exact appendsWarnings_of_out_eq rfl
  | initEnc lb log tx len => cases h; exact appendsWarnings_of_out_eq rfl
  | reserved3 op => cases h; exact appendsWarnings_of_out_eq rfl
  | reserved7 => cases h; exact appendsWarnings_of_out_eq rfl
  | processFrame f =>
    obtain ⟨es, rfl, hes⟩ := execProcessFrame_onlyWarnings h
    exact ⟨es, rfl, hes⟩
  | sendBool name v => exact sendCommon_appendsWarnings h
  | sendU8 name v => exact sendCommon_appendsWarnings h
  | sendU16 name v => exact sendCommon_appendsWarnings h
  | unsupportedDec => cases h; exact ⟨_, rfl, onlyWarnings_raised _ _⟩
  | unsupportedEnc => cases h; exact ⟨_, rfl, onlyWarnings_raised _ _⟩
  | extract8 b =>
    obtain ⟨g, win, -, rfl⟩ := execExtract8_next h
    exact appendsWarnings_of_out_eq rfl
  | extract16 =>
    obtain ⟨g, win, -, rfl⟩ := execExtract16_next h
    exact appendsWarnings_of_out_eq rfl
  | pack8 b =>
    obtain ⟨g, win, -, rfl⟩ := execPack8_next h
    exact appendsWarnings_of_out_eq rfl
  | pack16 =>
    obtain ⟨g, win, -, rfl⟩ := execPack16_next h
    exact appendsWarnings_of_out_eq rfl

end Sys2Proof.Machine

namespace Sys2Proof.Machine

/-! How an engine operation on the datapath ends: as the engine's function answers for the field in
hand (R112 to R117). -/

/-- The operation has the outcome that the engine's answer stands for: a refusal where the engine has
none, else a next state in which `read` finds it. -/
inductive EngineEnds {α : Type} (read : State → α) :
    Option α → Host.Outcome State Fault Refusal → Prop where
  | refused : EngineEnds read none (.refused .descriptorNotOk)
  | next {t : State} {a : α} (h : read t = a) : EngineEnds read (some a) (.next t)

theorem execExtract8_ends (b : BitVec 1) (s : State) :
    EngineEnds (·.dp.raw) (extract8 s.dp.startBit s.dp.endBit s.dp.payload)
      (exec (.extract8 b) s) := by
  simp only [exec, execExtract8, extract8]
  cases window8 s.dp.startBit s.dp.endBit s.dp.payload with
  | none => exact .refused
  | some w => exact .next rfl

theorem execExtract16_ends (s : State) :
    EngineEnds (·.dp.raw) (extract16 s.dp.startBit s.dp.endBit s.dp.payload)
      (exec .extract16 s) := by
  simp only [exec, execExtract16, extract16]
  cases window16 s.dp.startBit s.dp.endBit s.dp.payload with
  | none => exact .refused
  | some w => exact .next rfl

theorem execPack8_ends (b : BitVec 1) (s : State) :
    EngineEnds (·.dp.payload) (pack8 s.dp.startBit s.dp.endBit s.dp.value s.dp.payload)
      (exec (.pack8 b) s) := by
  simp only [exec, execPack8, pack8]
  cases window8 s.dp.startBit s.dp.endBit s.dp.payload with
  | none => exact .refused
  | some w => exact .next rfl

theorem execPack16_ends (s : State) :
    EngineEnds (·.dp.payload) (pack16 s.dp.startBit s.dp.endBit s.dp.value s.dp.payload)
      (exec .pack16 s) := by
  simp only [exec, execPack16, pack16]
  cases window16 s.dp.startBit s.dp.endBit s.dp.payload with
  | none => exact .refused
  | some w => exact .next rfl

section
variable {α : Type} {read : State → α} {answer : Option α} {o : Host.Outcome State Fault Refusal}

theorem EngineEnds.refused_iff (h : EngineEnds read answer o) :
    o = .refused .descriptorNotOk ↔ answer.isSome = false := by
  cases h <;> simp

theorem EngineEnds.exists_next {a : α} (h : EngineEnds read (some a) o) :
    ∃ t, o = .next t ∧ read t = a := by
  cases h with
  | next hread => exact ⟨_, rfl, hread⟩

theorem EngineEnds.answer_of_next {t : State} (h : EngineEnds read answer (.next t)) :
    answer = some (read t) := by
  cases h with
  | next hread => rw [hread]

end

/-- Settles O20: the engine has an answer exactly when the window is in the payload (R117). -/
theorem engineStopsExactlyWithoutDescOK : Obligations.EngineStopsExactlyWithoutDescOK := by
  unfold Obligations.EngineStopsExactlyWithoutDescOK
  intro s
  refine ⟨fun b => ?_, ?_, fun b => ?_, ?_⟩
  · rw [(execExtract8_ends b s).refused_iff, extract8_isSome]
  · rw [(execExtract16_ends s).refused_iff, extract16_isSome]
  · rw [(execPack8_ends b s).refused_iff, pack8_isSome]
  · rw [(execPack16_ends s).refused_iff, pack16_isSome]

/-! Packing again: clearing the field and ORing in the value is idempotent, and a write of what a
read just gave changes nothing (R57, R114, R115). -/

theorem and_not_or_idem {n : Nat} (win mask value : BitVec n) :
    (win &&& ~~~mask ||| value) &&& ~~~mask ||| value = win &&& ~~~mask ||| value := by
  apply BitVec.eq_of_getLsbD_eq
  intro i hi
  simp only [BitVec.getLsbD_or, BitVec.getLsbD_and]
  cases win.getLsbD i <;> cases (~~~mask).getLsbD i <;> cases value.getLsbD i <;> rfl

theorem merge8_merge8 (g : Geometry) (v : Half) (win : Byte) :
    merge8 g v (merge8 g v win) = merge8 g v win := and_not_or_idem _ _ _

theorem merge16_merge16 (g : Geometry) (v win : Half) :
    merge16 g v (merge16 g v win) = merge16 g v win := and_not_or_idem _ _ _

theorem memWrite8_memWrite8 (p : Payload) (k : Nat) (v w : Byte) :
    memWrite8 (memWrite8 p k v) k w = memWrite8 p k w := by
  ext i hi
  simp only [memWrite8_getElem _ _ _ hi]
  split <;> rfl

theorem memWrite16_memWrite16 (p : Payload) (k : Nat) (v w : Half) :
    memWrite16 (memWrite16 p k v) k w = memWrite16 p k w := by
  ext i hi
  simp only [memWrite16_getElem _ _ _ hi]
  split
  · rfl
  split <;> rfl

/-- The window read back after a 2-byte write is the value written (R51). -/
theorem memWrite16_window (p : Payload) {k : Nat} (v : Half) (h : k + 1 < 8) :
    (memWrite16 p k v)[k + 1] ++ (memWrite16 p k v)[k]'(by omega) = v := by
  rw [memWrite16_getElem, memWrite16_getElem, if_pos rfl, if_neg (by omega), if_pos rfl]
  exact (BitVec.extractLsb'_append_extractLsb'_eq_extractLsb' rfl).trans BitVec.extractLsb'_eq_self

theorem pack8_idem {sb eb : BitPos} {v : Half} {p data : Payload}
    (h : pack8 sb eb v p = some data) : pack8 sb eb v data = some data := by
  have hok : windowOk 1 sb eb = true := by rw [← pack8_isSome sb eb v p, h]; rfl
  simp only [pack8, window8_of_ok _ hok, Option.map_some, Option.some.injEq] at h ⊢
  subst h
  simp only [fieldGeometry, memWrite8_getElem, if_pos, merge8_merge8, memWrite8_memWrite8]

theorem pack16_idem {sb eb : BitPos} {v : Half} {p data : Payload}
    (h : pack16 sb eb v p = some data) : pack16 sb eb v data = some data := by
  have hok : windowOk 2 sb eb = true := by rw [← pack16_isSome sb eb v p, h]; rfl
  simp only [pack16, window16_of_ok _ hok, Option.map_some, Option.some.injEq] at h ⊢
  subst h
  simp only [fieldGeometry, memWrite16_window _ _ (windowOk_two hok), merge16_merge16,
    memWrite16_memWrite16]

/-- A pack keeps the operands it is invoked with, but for the payload (R125). -/
theorem pack_keeps_operands {i : Instr} {s t : State} (hi : (∃ b, i = .pack8 b) ∨ i = .pack16)
    (h : exec i s = .next t) :
    t.dp.startBit = s.dp.startBit ∧ t.dp.endBit = s.dp.endBit ∧ t.dp.value = s.dp.value := by
  have hframe := (engineFrame i s t h).2 hi
  rw [hframe]
  exact ⟨rfl, rfl, rfl⟩

/-- Settles O26: the second pack is of the same field and value, into the payload of the first. -/
theorem packIsIdempotent : Obligations.PackIsIdempotent := by
  unfold Obligations.PackIsIdempotent
  intro s t i hi h
  obtain ⟨hstart, hend, hvalue⟩ := pack_keeps_operands hi h
  rcases hi with ⟨b, rfl⟩ | rfl
  · have hs := execPack8_ends b s
    have ht := execPack8_ends b t
    rw [h] at hs
    rw [hstart, hend, hvalue, pack8_idem hs.answer_of_next] at ht
    exact ht.exists_next
  · have hs := execPack16_ends s
    have ht := execPack16_ends t
    rw [h] at hs
    rw [hstart, hend, hvalue, pack16_idem hs.answer_of_next] at ht
    exact ht.exists_next

/-- A field that lies in its first byte is read the same with the next byte above it (R52). -/
theorem field16_append_eq_field8 {sb eb : BitPos} (hle : sb.toNat ≤ eb.toNat)
    (hfit : windowFit 1 sb eb = true) (hi lo : Byte) :
    field16 (fieldGeometry sb eb) (hi ++ lo) = field8 (fieldGeometry sb eb) lo := by
  rw [windowFit_iff] at hfit
  apply BitVec.eq_of_getLsbD_eq
  intro k hk
  rw [getLsbD_field16, getLsbD_field8, getLsbD_fieldMask, fieldWidth_toNat hle]
  by_cases hw : k < eb.toNat - sb.toNat + 1
  · have hlow : (fieldGeometry sb eb).bitShift + k < 8 := by
      simp only [fieldGeometry]; omega
    simp only [BitVec.getLsbD_append, hlow, hk, if_true, decide_true, Bool.true_and]
  · simp [hw]

theorem extract16_eq_extract8 {sb eb : BitPos} (p : Payload) (h8 : windowOk 1 sb eb = true)
    (h16 : windowOk 2 sb eb = true) (hfit : windowFit 1 sb eb = true) :
    extract16 sb eb p = extract8 sb eb p := by
  simp only [extract16, extract8, window16_of_ok p h16, window8_of_ok p h8, Option.map_some,
    field16_append_eq_field8 (windowOk_iff.mp h8).1 hfit]

/-- Settles O27: both windows give the engine's one answer. -/
theorem windowSizesAgree : Obligations.WindowSizesAgree := by
  unfold Obligations.WindowSizesAgree
  intro s b h8 h16 hfit
  have hsome := extract8_isSome s.dp.startBit s.dp.endBit s.dp.payload
  rw [h8] at hsome
  obtain ⟨raw, hraw⟩ := Option.isSome_iff_exists.mp hsome
  have e8 := execExtract8_ends b s
  have e16 := execExtract16_ends s
  rw [extract16_eq_extract8 _ h8 h16 hfit, hraw] at e16
  rw [hraw] at e8
  obtain ⟨t, ht, htraw⟩ := e8.exists_next
  obtain ⟨u, hu, huraw⟩ := e16.exists_next
  exact ⟨t, u, ht, hu, htraw.trans huraw.symm⟩

/-! When PROCESS_FRAME is refused (R63, R117). -/

theorem descOK_of_unsupported {d : Descriptor} (h : d.type = .unsupported) : DescOK d = true := by
  simp only [DescOK, h, TypeTag.windowBytes]

/-- One entry is refused when the engine is invoked for it without `DescOK`: it matches, it passes
the length check and it fails `DescOK`, which an unsupported type never does. -/
theorem decodeEntry_eq_error {s : State} {f : Frame} {i : Nat} {r : Refusal} :
    decodeEntry s f i = .error r ↔
      r = .descriptorNotOk ∧ (s.descriptor i).frameId = f.id ∧
        ¬ f.dlc.toNat * 8 < (s.descriptor i).endBit.toNat ∧ DescOK (s.descriptor i) = false := by
  unfold decodeEntry frameTooShort
  simp only [decide_eq_true_eq]
  split
  · rename_i hid; simp [hid]
  rename_i hid
  split
  · rename_i hshort; simp [hshort]
  rename_i hshort
  split
  · rename_i htype; simp [descOK_of_unsupported htype]
  rename_i htype
  rw [← extractFor_isSome f.data htype]
  cases extractFor (s.descriptor i) f.data with
  | none => simp [hshort, not_not.mp hid, eq_comm]
  | some raw => simp

theorem scanFrame_eq_error {s : State} {f : Frame} (n i : Nat) :
    scanFrame s f n i = .error .descriptorNotOk ↔
      ∃ k, i ≤ k ∧ k < i + n ∧ decodeEntry s f k = .error .descriptorNotOk := by
  induction n generalizing i with
  | zero =>
    simp only [scanFrame, reduceCtorEq, false_iff]
    rintro ⟨k, hlo, hhi, -⟩
    omega
  | succ n ih =>
    have hsplit : (∃ k, i ≤ k ∧ k < i + (n + 1) ∧ decodeEntry s f k = .error .descriptorNotOk) ↔
        decodeEntry s f i = .error .descriptorNotOk ∨
          scanFrame s f n (i + 1) = .error .descriptorNotOk := by
      rw [ih]
      constructor
      · rintro ⟨k, hlo, hhi, hk⟩
        rcases Nat.eq_or_lt_of_le hlo with rfl | hlt
        · exact .inl hk
        · exact .inr ⟨k, hlt, by omega, hk⟩
      · rintro (h | ⟨k, hlo, hhi, hk⟩)
        · exact ⟨i, Nat.le_refl i, by omega, h⟩
        · exact ⟨k, by omega, by omega, hk⟩
    rw [hsplit, scanFrame]
    rcases decodeEntry_cases s f i with ⟨he, -⟩ | ⟨es, he, -⟩
    · simp [he]
    · cases hr : scanFrame s f n (i + 1) with
      | error r => simp [he]
      | ok rest => simp [he]

theorem execProcessFrame_of_stale {s : State} (f : Frame) (hready : s.decReady = true)
    (hstale : s.dtStale = true) : execProcessFrame f s = .refused .tableChangedInUse := by
  simp [execProcessFrame, hready, hstale]

theorem execProcessFrame_not_refused_of_not_ready {s : State} (f : Frame) (r : Refusal)
    (hready : s.decReady = false) : execProcessFrame f s ≠ .refused r := by
  simp [execProcessFrame, hready]

/-- A ready decoder's command on an unstale table is refused as its scan is. -/
theorem execProcessFrame_eq_refused {s : State} {f : Frame} {r : Refusal}
    (hready : s.decReady = true) (hstale : s.dtStale = false) :
    execProcessFrame f s = .refused r ↔ scanFrame s f s.dtLen.toNat 0 = .error r := by
  simp only [execProcessFrame, hready, hstale]
  cases scanFrame s f s.dtLen.toNat 0 <;> simp

/-- Settles O34, by the decoder's ready bit and the stale mark. -/
theorem processFrameStops : Obligations.ProcessFrameStops := by
  unfold Obligations.ProcessFrameStops
  intro f s
  change (execProcessFrame f s = _ ↔ _) ∧ (execProcessFrame f s = _ ↔ _)
  cases hready : s.decReady with
  | false => simp [execProcessFrame_not_refused_of_not_ready f _ hready]
  | true =>
    cases hstale : s.dtStale with
    | true => simp [execProcessFrame_of_stale f hready hstale]
    | false =>
      have hscan : scanFrame s f s.dtLen.toNat 0 ≠ .error .tableChangedInUse :=
        fun h => nomatch scanFrame_refuses _ _ h
      rw [execProcessFrame_eq_refused hready hstale, execProcessFrame_eq_refused hready hstale,
        scanFrame_eq_error]
      simp [hscan, decodeEntry_eq_error]

/-! What a send does once both lookups have found their index (R170, R176). -/

theorem sendCommon_of_stale (e : EntryPoint) (name : Name) (v : Half) {s : State}
    (h : s.dtStale = true) : sendCommon e name v s = .refused .tableChangedInUse := by
  simp [sendCommon, h]

theorem sendCommon_of_valid {e : EntryPoint} {name : Name} {v : Half} {s : State} {i j : Nat}
    (hstale : s.dtStale = false) (hname : findName s name = some i)
    (hbuf : findBuffer s (s.descriptor i).frameId = some j)
    (hvalid : sendValid s e (s.descriptor i) (sendValue e v) = true) :
    sendCommon e name v s = transmit s (s.descriptor i) j (sendValue e v) := by
  simp [sendCommon, hstale, hname, hbuf, hvalid]

theorem sendValid_supported {s : State} {e : EntryPoint} {d : Descriptor} {v : Half}
    (h : sendValid s e d v = true) : d.type ≠ .unsupported := by
  simp only [sendValid, Bool.and_eq_true] at h
  exact typeOk_supported h.1.2

theorem exists_packFor_of_descOK {d : Descriptor} (v : Half) (p : Payload)
    (hsup : d.type ≠ .unsupported) (h : DescOK d = true) : ∃ data, packFor d v p = some data :=
  Option.isSome_iff_exists.mp ((packFor_isSome v p hsup).trans h)

/-- A transmission is refused when the engine is invoked without `DescOK`, and only then (R117). -/
theorem transmit_eq_refused {s : State} {d : Descriptor} {j : Nat} {v : Half} {r : Refusal}
    (hsup : d.type ≠ .unsupported) :
    transmit s d j v = .refused r ↔ r = .descriptorNotOk ∧ DescOK d = false := by
  rw [← packFor_isSome v (s.buffer j).data hsup]
  cases hp : packFor d v (s.buffer j).data with
  | none => simp [transmit, hp, eq_comm]
  | some data => simp [transmit_of_pack hp]

/-- The state with the operands of an engine operation for a descriptor in the datapath (R20). -/
def State.withOperands (s : State) (d : Descriptor) (v : Half) (p : Payload) : State :=
  { s with dp := { s.dp with
    startBit := d.startBit, endBit := d.endBit, value := v, payload := p } }

/-- The engine row of a descriptor's type, run on the descriptor's field, ends as the command's own
pack does (R116). -/
theorem execPackFor_ends (s : State) (d : Descriptor) (v : Half) (p : Payload) :
    EngineEnds (·.dp.payload) (packFor d v p)
      (exec (if d.type = .u16 then .pack16 else .pack8 0) (s.withOperands d v p)) := by
  unfold packFor
  split
  · exact execPack16_ends (s.withOperands d v p)
  · exact execPack8_ends 0 (s.withOperands d v p)

/-- Settles O38: the datapath's pack and the command's pack leave the same payload. -/
theorem validSendPacksAndTransmits : Obligations.ValidSendPacksAndTransmits := by
  unfold Obligations.ValidSendPacksAndTransmits
  intro e name v s i j hstale hname hbuf hready htype hmin hmax hok
  rw [← sendValue_eq_spec] at hmin hmax ⊢
  have hvalid : sendValid s e (s.descriptor i) (sendValue e v) = true :=
    sendValid_iff.mpr ⟨hready, htype, hmin, hmax⟩
  obtain ⟨data, hpack⟩ := exists_packFor_of_descOK (sendValue e v) (s.buffer j).data
    (sendValid_supported hvalid) hok
  have hrow := execPackFor_ends s (s.descriptor i) (sendValue e v) (s.buffer j).data
  rw [hpack] at hrow
  obtain ⟨u, hu, rfl⟩ := hrow.exists_next
  have hsend := sendCommon_of_valid hstale (findName_eq_some.mpr hname)
    (findBuffer_eq_some.mpr hbuf) hvalid
  rw [transmit_of_pack hpack, ← exec_sendInstr] at hsend
  refine ⟨_, u, hu, hsend, s.setBufferData_buffer_self j _, fun k hk => ?_, ?_⟩
  · rw [State.emit_buffer, State.setBufferData_buffer, if_neg hk]
  · rw [State.emit_buffer, State.setBufferData_buffer_self]
    rfl

theorem raised_ne_tx (logEn : Bool) (r : Report) (f : Frame) : raised logEn r ≠ [.tx f] := by
  cases logEn <;> simp

/-- Settles O41: a report is no `TX`, and a transmission's event is the buffer it has just written. -/
theorem transmitCarriesTheBuffer : Obligations.TransmitCarriesTheBuffer := by
  unfold Obligations.TransmitCarriesTheBuffer
  intro e name v s t f h hout
  rw [exec_sendInstr] at h
  rcases sendCommon_next h with ⟨r, rfl⟩ | ⟨j, data, hj, -, rfl⟩
  · exact absurd (List.append_cancel_left hout) (raised_ne_tx _ r f)
  · have htx : { s.buffer j with data := data } = f := by
      simpa using List.append_cancel_left hout
    refine ⟨j, hj, ?_⟩
    rw [State.emit_buffer, State.setBufferData_buffer_self, htx]

/-- On an unstale table only a valid send of a descriptor without `DescOK` is refused (R117). -/
theorem sendCommon_eq_refused {e : EntryPoint} {name : Name} {v : Half} {s : State} {r : Refusal}
    (hstale : s.dtStale = false) :
    sendCommon e name v s = .refused r ↔
      r = .descriptorNotOk ∧ ∃ i j, findName s name = some i ∧
        findBuffer s (s.descriptor i).frameId = some j ∧
        sendValid s e (s.descriptor i) (sendValue e v) = true ∧
        DescOK (s.descriptor i) = false := by
  constructor
  · intro h
    unfold sendCommon at h
    rw [if_neg (by simp [hstale])] at h
    split at h
    · cases h
    rename_i i hname
    split at h
    · cases h
    rename_i j hbuf
    split at h
    · rename_i hvalid
      obtain ⟨hr, hok⟩ := (transmit_eq_refused (sendValid_supported hvalid)).mp h
      exact ⟨hr, i, j, hname, hbuf, hvalid, hok⟩
    · cases h
  · rintro ⟨hr, i, j, hname, hbuf, hvalid, hok⟩
    rw [sendCommon_of_valid hstale hname hbuf hvalid]
    exact (transmit_eq_refused (sendValid_supported hvalid)).mpr ⟨hr, hok⟩

/-- Settles O46, by the stale mark. -/
theorem sendStops : Obligations.SendStops := by
  unfold Obligations.SendStops
  intro e name v s
  rw [exec_sendInstr]
  cases hstale : s.dtStale with
  | true => simp [sendCommon_of_stale e name v hstale]
  | false =>
    constructor
    · simp [sendCommon_eq_refused hstale]
    · simp only [sendCommon_eq_refused hstale, true_and, findName_eq_some, findBuffer_eq_some,
        sendValid_iff, sendValue_eq_spec, and_assoc]

end Sys2Proof.Machine

namespace Sys2Proof

/-! The record layouts (R87, R88): every field at its place, and every bit in some field. -/

theorem Frame.ofBits_toBits (f : Frame) : Frame.ofBits f.toBits = f := by
  obtain ⟨id, dlc, data⟩ := f
  simp (disch := omega) only [Frame.ofBits, Frame.toBits, BitVec.extractLsb'_append_eq_of_le,
    BitVec.extractLsb'_append_eq_of_add_le, Nat.reduceSub, BitVec.extractLsb'_eq_self,
    Payload.ofBits_toBits]

theorem Frame.toBits_ofBits (b : BitVec 100) : (Frame.ofBits b).toBits = b := by
  simp (disch := omega) only [Frame.toBits, Frame.ofBits, Payload.toBits_ofBits,
    BitVec.extractLsb'_append_extractLsb'_eq_extractLsb']
  exact BitVec.extractLsb'_eq_self

theorem Descriptor.ofBits_toBits (d : Descriptor) : Descriptor.ofBits d.toBits = d := by
  obtain ⟨frameId, signalId, name, startBit, endBit, min, max, type⟩ := d
  simp (disch := omega) only [Descriptor.ofBits, Descriptor.toBits,
    BitVec.extractLsb'_append_eq_of_le, BitVec.extractLsb'_append_eq_of_add_le, Nat.reduceSub,
    BitVec.extractLsb'_eq_self, TypeTag.ofCode_code]

theorem Descriptor.toBits_ofBits (b : BitVec 226) : (Descriptor.ofBits b).toBits = b := by
  simp (disch := omega) only [Descriptor.toBits, Descriptor.ofBits, TypeTag.code_ofCode,
    BitVec.extractLsb'_append_extractLsb'_eq_extractLsb']
  exact BitVec.extractLsb'_eq_self

/-- Settles O7: each record's two round trips. -/
theorem recordLayoutsRoundTrip : Obligations.RecordLayoutsRoundTrip :=
  ⟨Frame.ofBits_toBits, Frame.toBits_ofBits, Descriptor.ofBits_toBits, Descriptor.toBits_ofBits⟩

/-! The operand words: a layout reads back the fields it is written from (R81 to R83). -/

theorem decodeInitDec_fields (tbl log : Bool) (cb : BitVec 3) (len : Len) :
    decodeInitDec ((len ++ cb ++ presenceBit log ++ presenceBit tbl).setWidth 144) =
      .initDec tbl log cb len := by
  simp (disch := omega) only [decodeInitDec, getLsbD_setWidth_lt, extractLsb'_setWidth,
    getLsbD_append_presenceBit, getLsbD_append_presenceBit_succ _ _ 0,
    BitVec.extractLsb'_append_eq_of_le, BitVec.extractLsb'_append_eq_of_add_le, Nat.reduceSub,
    BitVec.extractLsb'_eq_self]

theorem decodeInitEnc_fields (lb log tx : Bool) (len : Len) :
    decodeInitEnc ((len ++ presenceBit tx ++ presenceBit log ++ presenceBit lb).setWidth 144) =
      .initEnc lb log tx len := by
  simp (disch := omega) only [decodeInitEnc, getLsbD_setWidth_lt, extractLsb'_setWidth,
    getLsbD_append_presenceBit, getLsbD_append_presenceBit_succ _ _ 0,
    getLsbD_append_presenceBit_succ _ _ 1, BitVec.extractLsb'_append_eq_of_le, Nat.reduceSub,
    BitVec.extractLsb'_eq_self]

theorem decodeProcessFrame_toBits (f : Frame) :
    decodeProcessFrame (f.toBits.setWidth 144) = .processFrame f := by
  rw [decodeProcessFrame, extractLsb'_setWidth _ (by omega), BitVec.extractLsb'_eq_self,
    Frame.ofBits_toBits]

/-- Settles O3, row by row: each command by its layout, the 8-bit engine rows by their free bit. -/
theorem decodeEncodeAgree : Obligations.DecodeEncodeAgree := by
  unfold Obligations.DecodeEncodeAgree
  intro i hi
  cases i with
  | initDec tbl log cb len => exact decodeInitDec_fields tbl log cb len
  | initEnc lb log tx len => exact decodeInitEnc_fields lb log tx len
  | processFrame f => exact decodeProcessFrame_toBits f
  | reserved3 op => exact decodeCommand_reserved hi 0
  | sendBool name v =>
    exact congrArg₂ Instr.sendBool (argName_sendArg name v) (argValue_sendArg name v)
  | sendU8 name v =>
    exact congrArg₂ Instr.sendU8 (argName_sendArg name v) (argValue_sendArg name v)
  | sendU16 name v =>
    exact congrArg₂ Instr.sendU16 (argName_sendArg name v) (argValue_sendArg name v)
  | extract8 t => revert t; decide
  | pack8 t => revert t; decide
  | reserved7 | extract16 | unsupportedDec | pack16 | unsupportedEnc => rfl

/-! What a command byte can be (R80, R86). -/

/-- A command byte is one of the seven named ones or a reserved one. -/
theorem commandByte_cases (op : Byte) :
    op = 0x00#8 ∨ op = 0x01#8 ∨ op = 0x02#8 ∨ op = 0x04#8 ∨ op = 0x05#8 ∨ op = 0x06#8 ∨
      op = 0x07#8 ∨ reservedByte op = true := by
  revert op; decide

/-- Whatever a command byte decodes to is well formed and is encoded under that byte again. -/
theorem decodeCommand_wellFormed (op : Byte) (arg : ArgWord) :
    wellFormed (decodeCommand op arg) = true ∧ Machine.isCommand (decodeCommand op arg) = true ∧
      ∃ arg', encode (decodeCommand op arg) = .command op arg' := by
  rcases commandByte_cases op with rfl | rfl | rfl | rfl | rfl | rfl | rfl | h
  case inr.inr.inr.inr.inr.inr.inr =>
    rw [decodeCommand_reserved h]
    exact ⟨h, rfl, 0, rfl⟩
  all_goals exact ⟨rfl, rfl, _, rfl⟩

/-- Settles O4: the canonical operand word is the one the encoder writes. -/
theorem everyCommandByteDecodes : Obligations.EveryCommandByteDecodes := by
  unfold Obligations.EveryCommandByteDecodes
  intro op arg
  obtain ⟨hwf, hcmd, arg', henc⟩ := decodeCommand_wellFormed op arg
  have hround : decodeFetch (encode (decodeCommand op arg)) = decodeCommand op arg :=
    decodeEncodeAgree _ hwf
  rw [henc] at hround
  exact ⟨hwf, hcmd, arg', henc, hround⟩

/-! The bits a layout reads (R81 to R83): an operand word cut down to them decodes the same. -/

theorem decodeInitDec_low_bits (a : ArgWord) :
    decodeInitDec ((a.setWidth 21).setWidth 144) = decodeInitDec a := by
  simp (disch := omega) only [decodeInitDec, getLsbD_setWidth_lt, extractLsb'_setWidth]

theorem decodeInitEnc_low_bits (a : ArgWord) :
    decodeInitEnc ((a.setWidth 19).setWidth 144) = decodeInitEnc a := by
  simp (disch := omega) only [decodeInitEnc, getLsbD_setWidth_lt, extractLsb'_setWidth]

theorem decodeProcessFrame_low_bits (a : ArgWord) :
    decodeProcessFrame ((a.setWidth 100).setWidth 144) = decodeProcessFrame a := by
  simp (disch := omega) only [decodeProcessFrame, extractLsb'_setWidth]

/-- A function of an operand word's low `n` bits takes two words that agree on them to one value. -/
theorem eq_of_low_bits {α : Type} {n : Nat} {read : ArgWord → α}
    (hread : ∀ a, read ((a.setWidth n).setWidth 144) = read a) {a b : ArgWord}
    (h : a.toNat % 2 ^ n = b.toNat % 2 ^ n) : read a = read b := by
  have hlow : a.setWidth n = b.setWidth n := by
    apply BitVec.eq_of_toNat_eq
    simpa only [BitVec.toNat_setWidth] using h
  rw [← hread a, hlow, hread b]

/-- Settles O5, by the command byte: a reserved one has no operand. -/
theorem operandBitsAboveLayoutIgnored : Obligations.OperandBitsAboveLayoutIgnored := by
  unfold Obligations.OperandBitsAboveLayoutIgnored
  intro op a b hdec henc hframe hsend
  rcases commandByte_cases op with rfl | rfl | rfl | rfl | rfl | rfl | rfl | h
  · exact eq_of_low_bits decodeInitDec_low_bits (hdec rfl)
  · exact eq_of_low_bits decodeInitEnc_low_bits (henc rfl)
  · exact eq_of_low_bits decodeProcessFrame_low_bits (hframe rfl)
  · rw [hsend (.inl rfl)]
  · rw [hsend (.inr (.inl rfl))]
  · rw [hsend (.inr (.inr rfl))]
  · rfl
  · rw [decodeCommand_reserved h, decodeCommand_reserved h]

/-- Settles O6: each written word, decoded. -/
theorem writtenWordsDecode : Obligations.WrittenWordsDecode := by
  unfold Obligations.WrittenWordsDecode
  decide

end Sys2Proof

namespace Sys2Proof.Machine

/-! A placed instruction is what the next step takes up (R60, R93, log entry 1). -/

theorem State.fetch_present_eq (s : State) (w : FetchWord) :
    (s.present w).fetch = .run w s.takeRequest := by
  cases w <;> rfl

/-- Settles O2: the placed words are fetched, and they decode to the instruction. -/
theorem presentedInstructionRuns : Obligations.PresentedInstructionRuns := by
  unfold Obligations.PresentedInstructionRuns
  intro s i hi
  rw [step_of_fetch_run (s.fetch_present_eq (encode i)), decodeEncodeAgree i hi]
  rfl

/-! Reserved commands and the unsupported-type rows (R86, R93). -/

theorem reservedByte_of_three_or_high {op : Byte} (h : op = 3 ∨ 8 ≤ op.toNat) :
    reservedByte op = true := by
  revert op; decide

/-- Settles O8: byte 7 decodes to RESERVED_7, every other reserved byte to RESERVED_3. -/
theorem reservedCommandsAreIgnored : Obligations.ReservedCommandsAreIgnored := by
  unfold Obligations.ReservedCommandsAreIgnored
  refine ⟨fun _ _ => rfl, fun _ => rfl, fun op arg s rest hop hr hp => ?_⟩
  rw [step_of_command hr hp]
  rcases hop with h3 | rfl | h8
  · rw [decodeCommand_reserved (reservedByte_of_three_or_high (.inl h3))]
    rfl
  · rfl
  · rw [decodeCommand_reserved (reservedByte_of_three_or_high (.inr h8))]
    rfl

theorem raised_decLogEn (s : State) (r : Report) : raised s.decLogEn r = decReport s r := rfl

theorem raised_encLogEn (s : State) (r : Report) : raised s.encLogEn r = encReport s r := rfl

/-- Settles O21: each row raises its one report. -/
theorem unsupportedRowsReport : Obligations.UnsupportedRowsReport := by
  unfold Obligations.UnsupportedRowsReport
  intro s
  rw [← raised_decLogEn, ← raised_encLogEn]
  exact ⟨rfl, rfl⟩

/-! A send reads its value operand through the width of its entry point only (R84, R174). -/

theorem sendCommon_of_same_value {e : EntryPoint} {v w : Half}
    (h : specSendValue e v = specSendValue e w) (name : Name) (s : State) :
    sendCommon e name v s = sendCommon e name w s := by
  simp only [sendCommon, sendValue_eq_spec, h]

/-- Settles O45: operands equal modulo the width carry the same value. -/
theorem sendIgnoresOperandBitsAboveWidth : Obligations.SendIgnoresOperandBitsAboveWidth := by
  unfold Obligations.SendIgnoresOperandBitsAboveWidth
  intro name v w s
  constructor
  · intro h
    exact sendCommon_of_same_value (e := .bool) (congrArg (BitVec.ofNat 16) h) name s
  · intro h
    exact sendCommon_of_same_value (e := .u8) (congrArg (BitVec.ofNat 16) h) name s

end Sys2Proof.Machine

namespace Sys2Proof.Machine

/-! The mask table and the geometry in natural numbers (R110, R111). -/

theorem toNat_ofNat_two_pow_sub_one {w : Nat} (h : w ≤ 16) :
    (BitVec.ofNat 16 (2 ^ w - 1)).toNat = 2 ^ w - 1 := by
  have hle : 2 ^ w ≤ 2 ^ 16 := Nat.pow_le_pow_right (by omega) h
  rw [BitVec.toNat_ofNat, Nat.mod_eq_of_lt (by omega)]

/-- Settles O13: inside the range the entry is the power less one, which 16 bits hold. -/
theorem maskTableValues : Obligations.MaskTableValues := by
  unfold Obligations.MaskTableValues
  constructor
  · intro w h1 h16
    exact ⟨_, maskTable_of_mem (by omega) (by omega), toNat_ofNat_two_pow_sub_one h16⟩
  · intro w h
    exact maskTable_eq_none (by omega)

theorem fieldMask_toNat {sb eb : BitPos} (h : widthOk sb eb = true) :
    (fieldGeometry sb eb).mask.toNat = 2 ^ (eb.toNat - sb.toNat + 1) - 1 := by
  simp only [widthOk, decide_eq_true_eq] at h
  have hle : sb.toNat ≤ eb.toNat := by unfold fieldWidth at h; omega
  simp only [fieldGeometry]
  rw [toNat_ofNat_two_pow_sub_one (by omega), fieldWidth_toNat hle]

theorem widthOk_of_windowOk {n : Nat} {sb eb : BitPos} (h : windowOk n sb eb = true) :
    widthOk sb eb = true := by
  simp only [windowOk, Bool.and_eq_true] at h
  exact h.1

/-- Where a field has a geometry, its width has a mask (R117). -/
theorem geometry_eq_some {sb eb : BitPos} {g : Geometry} (h : geometry sb eb = some g) :
    g = fieldGeometry sb eb ∧ maskTable g.width = some g.mask := by
  cases hw : widthOk sb eb with
  | false => rw [geometry_of_not_widthOk hw] at h; cases h
  | true =>
    rw [geometry_of_widthOk hw, Option.some.injEq] at h
    simp only [widthOk, decide_eq_true_eq] at hw
    exact ⟨h.symm, h ▸ maskTable_of_mem hw.1 hw.2⟩

theorem geometry_of_window8 {sb eb : BitPos} {p : Payload} {g : Geometry} {win : Byte}
    (h : window8 sb eb p = some (g, win)) : geometry sb eb = some g := by
  unfold window8 at h
  split at h
  · cases h
  · obtain ⟨_, _, hpair⟩ := Option.map_eq_some_iff.mp h
    cases hpair
    assumption

theorem geometry_of_window16 {sb eb : BitPos} {p : Payload} {g : Geometry} {win : Half}
    (h : window16 sb eb p = some (g, win)) : geometry sb eb = some g := by
  unfold window16 at h
  split at h
  · cases h
  · obtain ⟨_, _, hpair⟩ := Option.map_eq_some_iff.mp h
    cases hpair
    assumption

/-- An engine operation that answers has latched the geometry of its field (R111). -/
theorem engine_latches {i : Instr} {s t : State}
    (hi : (∃ b, i = .extract8 b) ∨ i = .extract16 ∨ (∃ b, i = .pack8 b) ∨ i = .pack16)
    (h : exec i s = .next t) :
    ∃ g, geometry s.dp.startBit s.dp.endBit = some g ∧
      t.dp.byteOffset = BitVec.ofNat 5 g.byteOffset ∧ t.dp.bitShift = BitVec.ofNat 3 g.bitShift ∧
      t.dp.width = g.width ∧ t.dp.mask = g.mask := by
  rcases hi with ⟨b, rfl⟩ | rfl | ⟨b, rfl⟩ | rfl
  · obtain ⟨g, win, hw, rfl⟩ := execExtract8_next h
    exact ⟨g, geometry_of_window8 hw, rfl, rfl, rfl, rfl⟩
  · obtain ⟨g, win, hw, rfl⟩ := execExtract16_next h
    exact ⟨g, geometry_of_window16 hw, rfl, rfl, rfl, rfl⟩
  · obtain ⟨g, win, hw, rfl⟩ := execPack8_next h
    exact ⟨g, geometry_of_window8 hw, rfl, rfl, rfl, rfl⟩
  · obtain ⟨g, win, hw, rfl⟩ := execPack16_next h
    exact ⟨g, geometry_of_window16 hw, rfl, rfl, rfl, rfl⟩

/-- Settles O18: 5 and 3 bits hold the byte offset and the shift of any start bit. -/
theorem engineLatchesGeometry : Obligations.EngineLatchesGeometry := by
  unfold Obligations.EngineLatchesGeometry
  intro i s t hi h
  obtain ⟨g, hg, hoff, hshift, hwidth, hmask⟩ := engine_latches hi h
  obtain ⟨rfl, htable⟩ := geometry_eq_some hg
  rw [hoff, hshift, hwidth, hmask]
  simp only [BitVec.toNat_ofNat]
  refine ⟨?_, ?_, rfl, htable⟩ <;> simp only [fieldGeometry] <;> omega

/-! The four operations on a field with `DescOK`: the next state they answer (R112 to R115). -/

theorem exec_extract8_of_ok (b : BitVec 1) {s : State}
    (h : windowOk 1 s.dp.startBit s.dp.endBit = true) :
    let g := fieldGeometry s.dp.startBit s.dp.endBit
    let win := s.dp.payload[s.dp.startBit.toNat / 8]'(windowOk_one h)
    exec (.extract8 b) s =
      .next { s with dp := { s.dp.latch g (win.setWidth 16) with raw := field8 g win } } := by
  simp only [exec, execExtract8, window8_of_ok _ h]

theorem exec_extract16_of_ok {s : State} (h : windowOk 2 s.dp.startBit s.dp.endBit = true) :
    let g := fieldGeometry s.dp.startBit s.dp.endBit
    let win := s.dp.payload[s.dp.startBit.toNat / 8 + 1]'(windowOk_two h) ++
      s.dp.payload[s.dp.startBit.toNat / 8]'(Nat.lt_of_succ_lt (windowOk_two h))
    exec .extract16 s = .next { s with dp := { s.dp.latch g win with raw := field16 g win } } := by
  simp only [exec, execExtract16, window16_of_ok _ h]

theorem exec_pack8_of_ok (b : BitVec 1) {s : State}
    (h : windowOk 1 s.dp.startBit s.dp.endBit = true) :
    let g := fieldGeometry s.dp.startBit s.dp.endBit
    let win := s.dp.payload[s.dp.startBit.toNat / 8]'(windowOk_one h)
    exec (.pack8 b) s = .next { s with dp := { s.dp.latch g (win.setWidth 16) with
      payload := memWrite8 s.dp.payload (s.dp.startBit.toNat / 8) (merge8 g s.dp.value win) } } := by
  simp only [exec, execPack8, window8_of_ok _ h]
  rfl

theorem exec_pack16_of_ok {s : State} (h : windowOk 2 s.dp.startBit s.dp.endBit = true) :
    let g := fieldGeometry s.dp.startBit s.dp.endBit
    let win := s.dp.payload[s.dp.startBit.toNat / 8 + 1]'(windowOk_two h) ++
      s.dp.payload[s.dp.startBit.toNat / 8]'(Nat.lt_of_succ_lt (windowOk_two h))
    exec .pack16 s = .next { s with dp := { s.dp.latch g win with
      payload :=
        memWrite16 s.dp.payload (s.dp.startBit.toNat / 8) (merge16 g s.dp.value win) } } := by
  simp only [exec, execPack16, window16_of_ok _ h]
  rfl

/-! The extracted field as a number (R112, R113). -/

theorem field16_toNat {sb eb : BitPos} (h : widthOk sb eb = true) (win : Half) :
    (field16 (fieldGeometry sb eb) win).toNat =
      win.toNat / 2 ^ (sb.toNat % 8) % 2 ^ (eb.toNat - sb.toNat + 1) := by
  rw [field16, BitVec.toNat_and, fieldMask_toNat h, Nat.and_two_pow_sub_one_eq_mod,
    BitVec.toNat_ushiftRight, Nat.shiftRight_eq_div_pow]
  rfl

/-- A byte is extracted from as the zero-extended 2-byte window is. -/
theorem field8_eq_field16 (g : Geometry) (win : Byte) :
    field8 g win = field16 g (win.setWidth 16) := by
  apply BitVec.eq_of_getLsbD_eq
  intro i hi
  rw [getLsbD_field8, getLsbD_field16, BitVec.getLsbD_setWidth]
  by_cases h : g.bitShift + i < 16
  · simp [h, hi]
  · simp [h, BitVec.getLsbD_of_ge win (g.bitShift + i) (by omega)]

theorem field8_toNat {sb eb : BitPos} (h : widthOk sb eb = true) (win : Byte) :
    (field8 (fieldGeometry sb eb) win).toNat =
      win.toNat / 2 ^ (sb.toNat % 8) % 2 ^ (eb.toNat - sb.toNat + 1) := by
  rw [field8_eq_field16, field16_toNat h, BitVec.toNat_setWidth,
    Nat.mod_eq_of_lt (Nat.lt_of_lt_of_le win.isLt (by decide))]

/-- Two bytes as one little-endian window, in numbers (R51). -/
theorem windowNat_eq_toNat (p : Payload) {k : Nat} (h : k + 1 < 8) :
    windowNat p k = (p[k + 1] ++ p[k]'(by omega)).toNat := by
  have hlo : k < 8 := by omega
  rw [BitVec.toNat_append, ← Nat.shiftLeft_add_eq_or_of_lt p[k].isLt, Nat.shiftLeft_eq]
  simp only [windowNat, Vector.getElem?_eq_getElem hlo, Vector.getElem?_eq_getElem h,
    Option.getD_some]
  omega

theorem ofNat_windowNat (p : Payload) {k : Nat} (h : k + 1 < 8) :
    BitVec.ofNat 16 (windowNat p k) = p[k + 1] ++ p[k]'(by omega) := by
  rw [windowNat_eq_toNat p h, BitVec.ofNat_toNat]
  exact BitVec.setWidth_eq _

/-- Settles O14: the raw value is the field of the byte read, and nothing else is written. -/
theorem extractEightGivesField : Obligations.ExtractEightGivesField := by
  unfold Obligations.ExtractEightGivesField
  intro b s h
  refine ⟨_, exec_extract8_of_ok b h, rfl, rfl, ?_⟩
  rw [Vector.getElem?_eq_getElem (windowOk_one h)]
  exact field8_toNat (widthOk_of_windowOk h) _

/-- Settles O15: the raw value is the field of the window read, and nothing else is written. -/
theorem extractSixteenGivesField : Obligations.ExtractSixteenGivesField := by
  unfold Obligations.ExtractSixteenGivesField
  intro s h
  refine ⟨_, exec_extract16_of_ok h, rfl, rfl, ?_⟩
  rw [windowNat_eq_toNat _ (windowOk_two h)]
  exact field16_toNat (widthOk_of_windowOk h) _

/-! The packed window (R114, R115). -/

theorem shlTrunc_fieldMask {sb eb : BitPos} (h : widthOk sb eb = true) (n k : Nat) :
    shlTrunc n (fieldGeometry sb eb).mask k =
      BitVec.ofNat n ((2 ^ (eb.toNat - sb.toNat + 1) - 1) <<< k) := by
  rw [shlTrunc, fieldMask_toNat h]

/-- Settles O16: one byte is written, with the mask's bits cleared and the value's ORed in. -/
theorem packEightWritesWindow : Obligations.PackEightWritesWindow := by
  unfold Obligations.PackEightWritesWindow
  intro b s h
  refine ⟨_, exec_pack8_of_ok b h, rfl, fun k hk => ?_⟩
  rw [← shlTrunc_fieldMask (widthOk_of_windowOk h)]
  simp only [memWrite8_getElem _ _ _ hk, eq_comm (a := k)]
  split
  · subst k
    rfl
  · rfl

/-- Settles O17: the window read back is the merged one, and a 2-byte write leaves the other bytes. -/
theorem packSixteenWritesWindow : Obligations.PackSixteenWritesWindow := by
  unfold Obligations.PackSixteenWritesWindow
  intro s h
  refine ⟨_, exec_pack16_of_ok h, rfl, ?_, fun k hk hlo hhi => ?_⟩
  · rw [← shlTrunc_fieldMask (widthOk_of_windowOk h), ofNat_windowNat _ (windowOk_two h),
      ofNat_windowNat _ (windowOk_two h), memWrite16_window _ _ (windowOk_two h)]
    rfl
  · simp only [memWrite16_getElem _ _ _ hk]
    rw [if_neg (Ne.symm hhi), if_neg (Ne.symm hlo)]

/-! The bits of a payload at their absolute positions (R7, R51): a window of `n` bytes at byte `o`
holds the bits `8 o` to `8 (o + n) - 1`. -/

theorem getLsbD_window8 (p : Payload) {o k : Nat} (ho : o < 8) (hk : o ≤ k / 8 ∧ k / 8 < o + 1) :
    p[o].getLsbD (k - 8 * o) = p.toBits.getLsbD k := by
  obtain rfl : o = k / 8 := by omega
  rw [Payload.getLsbD_toBits p (by omega), show k - 8 * (k / 8) = k % 8 by omega]

theorem getLsbD_window16 (p : Payload) {o k : Nat} (ho : o + 1 < 8)
    (hk : o ≤ k / 8 ∧ k / 8 < o + 2) :
    (p[o + 1] ++ p[o]'(by omega)).getLsbD (k - 8 * o) = p.toBits.getLsbD k := by
  rw [BitVec.getLsbD_append]
  split
  · exact getLsbD_window8 p (by omega) (by omega)
  · rw [← getLsbD_window8 p ho (by omega)]
    congr 1

theorem getLsbD_memWrite8 (p : Payload) (v : Byte) {o k : Nat} (hk : k < 64) :
    (memWrite8 p o v).toBits.getLsbD k =
      if o ≤ k / 8 ∧ k / 8 < o + 1 then v.getLsbD (k - 8 * o) else p.toBits.getLsbD k := by
  rw [Payload.getLsbD_toBits _ hk, Payload.getLsbD_toBits _ hk, memWrite8_getElem]
  by_cases h : o = k / 8
  · rw [if_pos h, if_pos (by omega), show k % 8 = k - 8 * o by omega]
  · rw [if_neg h, if_neg (by omega)]

theorem getLsbD_memWrite16 (p : Payload) (v : Half) {o k : Nat} (ho : o + 1 < 8) (hk : k < 64) :
    (memWrite16 p o v).toBits.getLsbD k =
      if o ≤ k / 8 ∧ k / 8 < o + 2 then v.getLsbD (k - 8 * o) else p.toBits.getLsbD k := by
  split
  · rename_i hin
    rw [← getLsbD_window16 _ ho hin, memWrite16_window _ _ ho]
  · rw [Payload.getLsbD_toBits _ hk, Payload.getLsbD_toBits _ hk, memWrite16_getElem,
      if_neg (by omega), if_neg (by omega)]

/-- Bit `k` of a merged window of either size (R126): the field's bits cleared, the unmasked value
shifted to the field ORed in. -/
theorem getLsbD_merged {n : Nat} {sb eb : BitPos} (hle : sb.toNat ≤ eb.toNat) (hn : n ≤ 16)
    (value : Half) (win : BitVec n) {k : Nat} (hlo : 8 * (sb.toNat / 8) ≤ k)
    (hhi : k - 8 * (sb.toNat / 8) < n) :
    ((win &&& ~~~ shlTrunc n (fieldGeometry sb eb).mask (sb.toNat % 8)) |||
        shlTrunc n value (sb.toNat % 8)).getLsbD (k - 8 * (sb.toNat / 8)) =
      ((win.getLsbD (k - 8 * (sb.toNat / 8)) &&
          !decide (sb.toNat ≤ k ∧ k ≤ eb.toNat)) ||
        (decide (sb.toNat ≤ k) && value.getLsbD (k - sb.toNat))) := by
  have hstart : sb.toNat % 8 ≤ k - 8 * (sb.toNat / 8) ↔ sb.toNat ≤ k := by omega
  have hdist : k - 8 * (sb.toNat / 8) - sb.toNat % 8 = k - sb.toNat := by omega
  have hfield : (decide (sb.toNat ≤ k) &&
      (decide (k - sb.toNat < 16) && decide (k - sb.toNat < eb.toNat - sb.toNat + 1))) =
        decide (sb.toNat ≤ k ∧ k ≤ eb.toNat) := by
    simp only [← Bool.decide_and, decide_eq_decide]
    omega
  simp only [BitVec.getLsbD_or, BitVec.getLsbD_and, BitVec.getLsbD_not, getLsbD_shlTrunc,
    getLsbD_fieldMask, fieldWidth_toNat hle, hstart, hdist, hhi, hfield, decide_true, Bool.true_and]

/-- Settles O25, window by window: the bits of the write are those of the merged window. -/
theorem packBitsInAllCases : Obligations.PackBitsInAllCases := by
  unfold Obligations.PackBitsInAllCases
  rintro s i n (⟨⟨b, rfl⟩, rfl⟩ | ⟨rfl, rfl⟩) h
  · refine ⟨_, exec_pack8_of_ok b h, fun k hk => ?_⟩
    rw [getLsbD_memWrite8 _ _ hk]
    split
    · rename_i hin
      rw [← getLsbD_window8 s.dp.payload (windowOk_one h) hin]
      exact getLsbD_merged (windowOk_iff.mp h).1 (by decide) _ _ (by omega) (by omega)
    · rfl
  · refine ⟨_, exec_pack16_of_ok h, fun k hk => ?_⟩
    rw [getLsbD_memWrite16 _ _ (windowOk_two h) hk]
    split
    · rename_i hin
      rw [← getLsbD_window16 s.dp.payload (windowOk_two h) hin]
      exact getLsbD_merged (windowOk_iff.mp h).1 (by decide) _ _ (by omega) (by omega)
    · rfl

theorem getLsbD_eq_false_of_toNat_lt {v : Half} {w i : Nat} (h : v.toNat < 2 ^ w) (hi : w ≤ i) :
    v.getLsbD i = false :=
  Nat.testBit_lt_two_pow (Nat.lt_of_lt_of_le h (Nat.pow_le_pow_right (by decide) hi))

/-- Settles O23, from the bits of any pack: the field lies in the window, and the value has no bit
above the field. -/
theorem packWritesPayloadField : Obligations.PackWritesPayloadField := by
  unfold Obligations.PackWritesPayloadField
  intro s i n hi hok hfit hvalue
  obtain ⟨t, ht, hbits⟩ := packBitsInAllCases s i n hi hok
  refine ⟨t, ht, fun k hk => ?_⟩
  rw [hbits k hk]
  obtain ⟨hle, -, -⟩ := windowOk_iff.mp hok
  rw [windowFit_iff] at hfit
  by_cases hfield : s.dp.startBit.toNat ≤ k ∧ k ≤ s.dp.endBit.toNat
  · have hwin : s.dp.startBit.toNat / 8 ≤ k / 8 ∧ k / 8 < s.dp.startBit.toNat / 8 + n := by omega
    simp [hfield, hwin]
  · by_cases hstart : s.dp.startBit.toNat ≤ k
    · have habove : s.dp.value.getLsbD (k - s.dp.startBit.toNat) = false :=
        getLsbD_eq_false_of_toNat_lt hvalue (by omega)
      simp [hfield, habove]
    · simp [hstart]

/-- The bits of the field of a payload (R7, R120). -/
theorem getLsbD_payloadField (p : Payload) (sb eb : BitPos) (i : Nat) :
    (payloadField p sb eb).getLsbD i =
      (decide (i < 16) && (decide (i < eb.toNat - sb.toNat + 1) &&
        p.toBits.getLsbD (sb.toNat + i))) := by
  simp only [payloadField, BitVec.getLsbD_setWidth, BitVec.extractLsb, BitVec.getLsbD_extractLsb']

/-- The bits of an extract of either size (R120): `raw` masks the bits of a window that holds the
payload's bits of the field. -/
theorem eq_payloadField {sb eb : BitPos} (hle : sb.toNat ≤ eb.toNat) {p : Payload} {raw : Half}
    {window : Nat → Bool}
    (hraw : ∀ i < 16, raw.getLsbD i =
      (window (sb.toNat % 8 + i) && (fieldGeometry sb eb).mask.getLsbD i))
    (hwin : ∀ k, sb.toNat ≤ k → k ≤ eb.toNat →
      window (k - 8 * (sb.toNat / 8)) = p.toBits.getLsbD k) :
    raw = payloadField p sb eb := by
  apply BitVec.eq_of_getLsbD_eq
  intro i hi
  rw [hraw i hi, getLsbD_payloadField, getLsbD_fieldMask, fieldWidth_toNat hle]
  by_cases h : i < eb.toNat - sb.toNat + 1
  · rw [← hwin (sb.toNat + i) (by omega) (by omega),
      show sb.toNat + i - 8 * (sb.toNat / 8) = sb.toNat % 8 + i by omega]
    simp [hi, h]
  · simp [h]

theorem field8_eq_payloadField {sb eb : BitPos} (p : Payload) (hok : windowOk 1 sb eb = true)
    (hfit : windowFit 1 sb eb = true) :
    field8 (fieldGeometry sb eb) (p[sb.toNat / 8]'(windowOk_one hok)) = payloadField p sb eb := by
  rw [windowFit_iff] at hfit
  refine eq_payloadField (windowOk_iff.mp hok).1 (fun i hi => ?_)
    (fun k hlo hhi => getLsbD_window8 p (windowOk_one hok) (by omega))
  rw [getLsbD_field8, decide_eq_true hi, Bool.true_and]
  rfl

theorem field16_eq_payloadField {sb eb : BitPos} (p : Payload) (hok : windowOk 2 sb eb = true)
    (hfit : windowFit 2 sb eb = true) :
    field16 (fieldGeometry sb eb) (p[sb.toNat / 8 + 1]'(windowOk_two hok) ++
      p[sb.toNat / 8]'(Nat.lt_of_succ_lt (windowOk_two hok))) = payloadField p sb eb := by
  rw [windowFit_iff] at hfit
  exact eq_payloadField (windowOk_iff.mp hok).1 (fun i _ => getLsbD_field16 _ _ i)
    (fun k hlo hhi => getLsbD_window16 p (windowOk_two hok) (by omega))

theorem payloadField_lt (p : Payload) (sb eb : BitPos) :
    (payloadField p sb eb).toNat < 2 ^ (eb.toNat - sb.toNat + 1) := by
  rw [payloadField, BitVec.toNat_setWidth]
  exact Nat.lt_of_le_of_lt (Nat.mod_le _ _) (BitVec.isLt _)

/-- Settles O22, for each window: the masked window is the field of the payload. -/
theorem extractReadsPayloadField : Obligations.ExtractReadsPayloadField := by
  unfold Obligations.ExtractReadsPayloadField
  intro s
  constructor
  · intro b hok hfit
    have hraw := field8_eq_payloadField s.dp.payload hok hfit
    exact ⟨_, exec_extract8_of_ok b hok, hraw, hraw ▸ payloadField_lt _ _ _⟩
  · intro hok hfit
    have hraw := field16_eq_payloadField s.dp.payload hok hfit
    exact ⟨_, exec_extract16_of_ok hok, hraw, hraw ▸ payloadField_lt _ _ _⟩

/-- A payload whose field has the bits of a fitting value has that value as its field. -/
theorem payloadField_eq_of_bits {p : Payload} {sb eb : BitPos} {value : Half}
    (hle : sb.toNat ≤ eb.toNat) (hvalue : value.toNat < 2 ^ (eb.toNat - sb.toNat + 1))
    (hbits : ∀ k, sb.toNat ≤ k → k ≤ eb.toNat →
      p.toBits.getLsbD k = value.getLsbD (k - sb.toNat)) :
    payloadField p sb eb = value := by
  apply BitVec.eq_of_getLsbD_eq
  intro i hi
  rw [getLsbD_payloadField]
  by_cases h : i < eb.toNat - sb.toNat + 1
  · rw [hbits _ (by omega) (by omega), Nat.add_sub_cancel_left]
    simp [hi, h]
  · simp [h, getLsbD_eq_false_of_toNat_lt hvalue (i := i) (by omega)]

/-- Settles O24: the pack leaves the value as the field of the payload, and the extract reads the
field of that payload, with the same operands. -/
theorem packThenExtractRoundTrip : Obligations.PackThenExtractRoundTrip := by
  unfold Obligations.PackThenExtractRoundTrip
  intro s i j n hij hok hfit hvalue
  have hi : ((∃ b, i = .pack8 b) ∧ n = 1) ∨ (i = .pack16 ∧ n = 2) :=
    hij.imp (fun ⟨⟨b, _, h, _⟩, hn⟩ => ⟨⟨b, h⟩, hn⟩) (fun ⟨h, _, hn⟩ => ⟨h, hn⟩)
  obtain ⟨t, ht, hbits⟩ := packWritesPayloadField s i n hi hok hfit hvalue
  obtain ⟨hstart, hend, -⟩ := pack_keeps_operands (hi.imp And.left And.left) ht
  have hfield : payloadField t.dp.payload t.dp.startBit t.dp.endBit = s.dp.value := by
    obtain ⟨hle, -, hlast⟩ := windowOk_iff.mp hok
    have hin := windowFit_iff.mp hfit
    rw [hstart, hend]
    exact payloadField_eq_of_bits hle hvalue
      fun k hlo hhi => (hbits k (by omega)).trans (if_pos ⟨hlo, hhi⟩)
  rw [← hstart, ← hend] at hok hfit
  have hextract : ∃ u, exec j t = .next u ∧
      u.dp.raw = payloadField t.dp.payload t.dp.startBit t.dp.endBit := by
    rcases hij with ⟨⟨_, c, _, rfl⟩, rfl⟩ | ⟨_, rfl, rfl⟩
    · obtain ⟨u, hu, hraw, -⟩ := (extractReadsPayloadField t).1 c hok hfit
      exact ⟨u, hu, hraw⟩
    · obtain ⟨u, hu, hraw, -⟩ := (extractReadsPayloadField t).2 hok hfit
      exact ⟨u, hu, hraw⟩
  obtain ⟨u, hu, hraw⟩ := hextract
  exact ⟨t, u, ht, hu, hraw.trans hfield⟩

/-! Commands complete where nothing can be refused (R119, R179, R220). -/

theorem execProcessFrame_completes (f : Frame) {s : State} (hok : s.TableOk)
    (hstale : s.dtStale = false) : ∃ t, execProcessFrame f s = .next t := by
  rcases execProcessFrame_cases f s with ⟨es, he⟩ | ⟨r, he⟩
  · exact ⟨_, he⟩
  cases hready : s.decReady with
  | false => exact absurd he (execProcessFrame_not_refused_of_not_ready f r hready)
  | true =>
    rw [execProcessFrame_eq_refused hready hstale] at he
    obtain rfl := scanFrame_refuses _ _ he
    obtain ⟨k, -, hk, herr⟩ := (scanFrame_eq_error _ _).mp he
    obtain ⟨es, hes, -⟩ := decodeEntry_ok f (hok k (by omega))
    rw [hes] at herr
    cases herr

theorem sendCommon_completes (e : EntryPoint) (name : Name) (v : Half) {s : State}
    (hok : s.TableOk) (hstale : s.dtStale = false) : ∃ t, sendCommon e name v s = .next t := by
  rcases sendCommon_cases e name v s with ⟨r, he⟩ | ⟨r, he⟩ | ⟨i, j, data, -, -, -, -, he⟩
  · obtain ⟨-, i, -, hname, -, -, hbad⟩ := (sendCommon_eq_refused hstale).mp he
    rw [hok i (findName_eq_some.mp hname).1] at hbad
    cases hbad
  · exact ⟨_, he⟩
  · exact ⟨_, he⟩

/-- Settles O48, command by command: a scan and a send are refused only without `DescOK`. -/
theorem everyCommandCompletes : Obligations.EveryCommandCompletes := by
  unfold Obligations.EveryCommandCompletes
  intro i s hi hok hstale
  cases i with
  | processFrame f => exact execProcessFrame_completes f hok hstale
  | sendBool name v => exact sendCommon_completes .bool name v hok hstale
  | sendU8 name v => exact sendCommon_completes .u8 name v hok hstale
  | sendU16 name v => exact sendCommon_completes .u16 name v hok hstale
  | initDec _ _ _ _ | initEnc _ _ _ _ | reserved3 _ | reserved7 => exact ⟨_, rfl⟩
  | extract8 _ | extract16 | unsupportedDec | pack8 _ | pack16 | unsupportedEnc => cases hi

end Sys2Proof.Machine

namespace Sys2Proof.Machine

/-! What one descriptor of a ready decoder emits, in the terms of rule R140. -/

theorem specEntryEvents_of_unmatched {s : State} {f : Frame} {i : Nat}
    (h : (s.descriptor i).frameId ≠ f.id) : specEntryEvents s f i = [] := if_pos h

/-- A matching descriptor that is skipped has its one report, the length check first (R143, R144). -/
theorem specEntryEvents_of_skipped {s : State} {f : Frame} {i : Nat}
    (hid : (s.descriptor i).frameId = f.id)
    (hskip : f.dlc.toNat * 8 < (s.descriptor i).endBit.toNat ∨
      (s.descriptor i).type = .unsupported) :
    specEntryEvents s f i =
      decReport s (if f.dlc.toNat * 8 < (s.descriptor i).endBit.toNat
        then .frameTooShort (BitVec.ofNat 16 i) f.dlc
        else .unsupportedType (BitVec.ofNat 16 i)) := by
  simp only [specEntryEvents]
  rw [if_neg (not_not.mpr hid)]
  by_cases hshort : f.dlc.toNat * 8 < (s.descriptor i).endBit.toNat
  · rw [if_pos hshort, if_pos hshort]
  · rw [if_neg hshort, if_neg hshort, if_pos (hskip.resolve_left hshort)]

/-- The engine's raw value is the number rules R112 and R113 give. -/
theorem extractFor_toNat {d : Descriptor} {p : Payload} {raw : Half}
    (h : extractFor d p = some raw) : raw.toNat = specRaw d p := by
  unfold extractFor at h
  by_cases h16 : d.type = .u16
  · rw [if_pos h16] at h
    have hok : windowOk 2 d.startBit d.endBit = true := by
      rw [← extract16_isSome d.startBit d.endBit p, h]; rfl
    simp only [extract16, window16_of_ok p hok, Option.map_some, Option.some.injEq] at h
    rw [← h, field16_toNat (widthOk_of_windowOk hok), ← windowNat_eq_toNat p (windowOk_two hok)]
    simp only [specRaw, if_pos h16]
  · rw [if_neg h16] at h
    have hok : windowOk 1 d.startBit d.endBit = true := by
      rw [← extract8_isSome d.startBit d.endBit p, h]; rfl
    simp only [extract8, window8_of_ok p hok, Option.map_some, Option.some.injEq] at h
    rw [← h, field8_toNat (widthOk_of_windowOk hok)]
    simp only [specRaw, if_neg h16, Vector.getElem?_eq_getElem (windowOk_one hok),
      Option.getD_some]

theorem inRange_iff {min max v : Half} :
    inRange min max v = true ↔ min.toNat ≤ v.toNat ∧ v.toNat ≤ max.toNat := by
  simp only [inRange, Bool.and_eq_true, decide_eq_true_eq]

/-- An entry that is not refused emits the event of rule R140 (R142 to R148, R224). -/
theorem decodeEntry_eq_spec {s : State} {f : Frame} {i : Nat} {es : List Event}
    (h : decodeEntry s f i = .ok es) : es = specEntryEvents s f i := by
  simp only [decodeEntry, frameTooShort, decide_eq_true_eq] at h
  split at h
  · rename_i hid
    cases h
    exact (specEntryEvents_of_unmatched hid).symm
  rename_i hid
  split at h
  · rename_i hshort
    cases h
    rw [specEntryEvents_of_skipped (not_not.mp hid) (.inl hshort), if_pos hshort]
    rfl
  rename_i hshort
  split at h
  · rename_i htype
    cases h
    rw [specEntryEvents_of_skipped (not_not.mp hid) (.inr htype), if_neg hshort]
    rfl
  rename_i htype
  split at h
  · cases h
  rename_i raw hraw
  cases h
  simp only [specEntryEvents, if_neg hid, if_neg hshort, if_neg htype,
    ← extractFor_toNat hraw, BitVec.ofNat_toNat, BitVec.setWidth_eq]
  simp only [dispatchRaw, inRange_iff]
  rfl

theorem decodeEntry_of_descOK {s : State} {i : Nat} (f : Frame)
    (h : DescOK (s.descriptor i) = true) : decodeEntry s f i = .ok (specEntryEvents s f i) := by
  obtain ⟨es, hes, -⟩ := decodeEntry_ok f h
  rw [hes, decodeEntry_eq_spec hes]

/-- A descriptor that does not match is passed over, with `DescOK` or without (R142). -/
theorem decodeEntry_of_unmatched {s : State} {f : Frame} {i : Nat}
    (h : (s.descriptor i).frameId ≠ f.id) : decodeEntry s f i = .ok [] := by
  simp only [decodeEntry, if_pos h]

/-- A scan that is not refused emits the events of rule R140 in table order (R149). -/
theorem scanFrame_eq_spec {s : State} {f : Frame} {n i : Nat} {es : List Event}
    (h : scanFrame s f n i = .ok es) : es = (List.range' i n).flatMap (specEntryEvents s f) := by
  have hentry : ∀ k, i ≤ k → k < i + n → decodeEntry s f k = .ok (specEntryEvents s f k) := by
    intro k hlo hhi
    rcases decodeEntry_cases s f k with ⟨herr, -⟩ | ⟨fs, hfs, -⟩
    · rw [(scanFrame_eq_error n i).mpr ⟨k, hlo, hhi, herr⟩] at h
      cases h
    · rw [hfs, decodeEntry_eq_spec hfs]
  rw [scanFrame_ok n i hentry] at h
  cases h
  rfl

/-! PROCESS_FRAME by the decoder's ready bit (R140, R141). -/

theorem State.emit_inj {s : State} {es fs : List Event} : s.emit es = s.emit fs ↔ es = fs :=
  ⟨fun h => List.append_cancel_left (congrArg State.out h), congrArg s.emit⟩

theorem execProcessFrame_of_not_ready (f : Frame) {s : State} (hready : s.decReady = false) :
    execProcessFrame f s = .next (s.emit (decReport s .decNotInit)) := by
  rw [execProcessFrame, if_pos hready]
  rfl

/-- A ready decoder's command on an unstale table appends what its scan emits. -/
theorem execProcessFrame_eq_next {s : State} {f : Frame} {es : List Event}
    (hready : s.decReady = true) (hstale : s.dtStale = false) :
    execProcessFrame f s = .next (s.emit es) ↔ scanFrame s f s.dtLen.toNat 0 = .ok es := by
  simp only [execProcessFrame, hready, hstale]
  cases scanFrame s f s.dtLen.toNat 0 <;> simp [State.emit_inj]

/-- Settles O28. -/
theorem notReadyDecoderOnlyReports : Obligations.NotReadyDecoderOnlyReports := by
  unfold Obligations.NotReadyDecoderOnlyReports
  intro f s hready
  exact execProcessFrame_of_not_ready f hready

/-- Settles O29: with `DescOK` no entry of the scan is refused, and each emits its event of R140. -/
theorem processFrameEmitsTableOrderEvents : Obligations.ProcessFrameEmitsTableOrderEvents := by
  unfold Obligations.ProcessFrameEmitsTableOrderEvents
  intro f s hs
  change execProcessFrame f s = .next (s.emit (if s.decReady = true
    then (List.range s.dtLen.toNat).flatMap (specEntryEvents s f) else decReport s .decNotInit))
  cases hready : s.decReady with
  | false => exact execProcessFrame_of_not_ready f hready
  | true =>
    obtain ⟨hstale, hok⟩ := hs hready
    apply (execProcessFrame_eq_next hready hstale).mpr
    rw [if_pos rfl, List.range_eq_range']
    exact scanFrame_ok _ 0 fun k _ hk => decodeEntry_of_descOK f (hok k (by omega))

/-- Settles O30: every entry of the scan is passed over, so `DescOK` is not needed. -/
theorem unmatchedFrameEmitsNothing : Obligations.UnmatchedFrameEmitsNothing := by
  unfold Obligations.UnmatchedFrameEmitsNothing
  intro f s hready hstale hne
  have hscan : scanFrame s f s.dtLen.toNat 0 = .ok [] := by
    rw [scanFrame_ok (g := fun _ => []) _ 0
      fun k _ hk => decodeEntry_of_unmatched (hne k (by omega))]
    simp
  have hexec := (execProcessFrame_eq_next hready hstale).mpr hscan
  rwa [State.emit_nil] at hexec

/-- Settles O33: the entries of the scan read the same fields in both states. -/
theorem decoderIgnoresEncoderState : Obligations.DecoderIgnoresEncoderState := by
  unfold Obligations.DecoderIgnoresEncoderState
  intro f s t hready hlog hcb hlen hdt hstale es
  change execProcessFrame f s = .next (s.emit es) ↔ execProcessFrame f t = .next (t.emit es)
  cases hr : t.decReady with
  | false =>
    rw [execProcessFrame_of_not_ready f hr, execProcessFrame_of_not_ready f (hready.trans hr)]
    simp only [Host.Outcome.next.injEq, State.emit_inj, decReport, hlog]
  | true =>
    cases hst : t.dtStale with
    | true =>
      rw [execProcessFrame_of_stale f hr hst,
        execProcessFrame_of_stale f (hready.trans hr) (hstale.trans hst)]
      simp only [reduceCtorEq]
    | false =>
      have hdesc : ∀ k, s.descriptor k = t.descriptor k := fun k => by
        rw [State.descriptor, State.descriptor, hdt]
      rw [execProcessFrame_eq_next hr hst,
        execProcessFrame_eq_next (hready.trans hr) (hstale.trans hst), hlen,
        scanFrame_congr f _ 0 fun k _ _ => decodeEntry_congr f k (hdesc k) hlog hcb]

/-! The decoder transmits nothing (R140, R151). -/

theorem tx_notMem_decReport (g : Frame) (s : State) (r : Report) : Event.tx g ∉ decReport s r := by
  unfold decReport
  split <;> simp

theorem tx_notMem_specCallback (g : Frame) (d : Descriptor) (raw : Half) :
    Event.tx g ∉ specCallback d raw := by
  unfold specCallback
  cases d.type <;> simp

theorem tx_notMem_specEntryEvents (g : Frame) (s : State) (f : Frame) (i : Nat) :
    Event.tx g ∉ specEntryEvents s f i := by
  simp only [specEntryEvents]
  split
  · exact List.not_mem_nil
  split
  · exact tx_notMem_decReport g s _
  split
  · exact tx_notMem_decReport g s _
  split
  · split
    · exact tx_notMem_specCallback g _ _
    · exact List.not_mem_nil
  · exact tx_notMem_decReport g s _

/-- What PROCESS_FRAME appends: at most one event for each descriptor in use (or the one report),
none of them a `TX` (R140). -/
theorem execProcessFrame_events {f : Frame} {s : State} {es : List Event}
    (h : execProcessFrame f s = .next (s.emit es)) :
    es.length ≤ (if s.decReady = true then s.dtLen.toNat else 1) ∧ ∀ g, Event.tx g ∉ es := by
  cases hready : s.decReady with
  | false =>
    rw [execProcessFrame_of_not_ready f hready, Host.Outcome.next.injEq, State.emit_inj] at h
    subst h
    exact ⟨raised_length_le _ _, fun g => tx_notMem_decReport g s _⟩
  | true =>
    cases hstale : s.dtStale with
    | true => rw [execProcessFrame_of_stale f hready hstale] at h; cases h
    | false =>
      have hscan := (execProcessFrame_eq_next hready hstale).mp h
      refine ⟨scanFrame_length_le _ _ hscan, fun g hmem => ?_⟩
      rw [scanFrame_eq_spec hscan] at hmem
      obtain ⟨k, -, hk⟩ := List.mem_flatMap.mp hmem
      exact tx_notMem_specEntryEvents g s f k hk

/-- Settles O31: the next state agrees with the first on all that the decoder reads, so the command
repeats its events there. -/
theorem processFrameOnlyAppendsEvents : Obligations.ProcessFrameOnlyAppendsEvents := by
  unfold Obligations.ProcessFrameOnlyAppendsEvents
  intro f s t h
  obtain ⟨es, rfl⟩ := execProcessFrame_next h
  obtain ⟨hlen, htx⟩ := execProcessFrame_events h
  have hrepeat := (decoderIgnoresEncoderState f s (s.emit es) rfl rfl rfl rfl rfl rfl es).mp h
  exact ⟨es, rfl, hlen, htx, fun _ => rfl, fun _ => rfl, hrepeat⟩

theorem range_eq_append_cons {i n : Nat} (h : i < n) :
    List.range n = List.range i ++ i :: List.range' (i + 1) (n - (i + 1)) := by
  have hn : n = i + (n - (i + 1) + 1) := by omega
  conv_lhs => rw [hn, List.range_add, ← List.range'_eq_map_range, List.range'_succ]

/-- Settles O32: the events of table order (O29), cut at the skipped descriptor. -/
theorem skippedDescriptorLeavesSiblings : Obligations.SkippedDescriptorLeavesSiblings := by
  unfold Obligations.SkippedDescriptorLeavesSiblings
  intro f s i hready hstale hok hi hid hskip
  rw [processFrameEmitsTableOrderEvents f s fun _ => ⟨hstale, hok⟩, if_pos hready,
    range_eq_append_cons hi, List.flatMap_append, List.flatMap_cons,
    specEntryEvents_of_skipped hid hskip, List.append_assoc, List.append_assoc]

end Sys2Proof.Machine

namespace Sys2Proof.Machine

/-! Where a send that does not transmit stops, each with its one report (R171, R172, R173). -/

theorem sendCommon_of_unknown {name : Name} {s : State} (e : EntryPoint) (v : Half)
    (hstale : s.dtStale = false) (hname : findName s name = none) :
    sendCommon e name v s = .next (s.emit (encReport s (.unknownSignal name))) := by
  simp [sendCommon, hstale, hname, raised_encLogEn]

theorem sendCommon_of_no_buffer {name : Name} {s : State} {i : Nat} (e : EntryPoint) (v : Half)
    (hstale : s.dtStale = false) (hname : findName s name = some i)
    (hbuf : findBuffer s (s.descriptor i).frameId = none) :
    sendCommon e name v s = .next (s.emit (encReport s (.noBuffer (BitVec.ofNat 16 i)))) := by
  simp [sendCommon, hstale, hname, hbuf, raised_encLogEn]

theorem sendCommon_of_invalid {e : EntryPoint} {name : Name} {v : Half} {s : State} {i j : Nat}
    (hstale : s.dtStale = false) (hname : findName s name = some i)
    (hbuf : findBuffer s (s.descriptor i).frameId = some j)
    (hvalid : ¬ sendValid s e (s.descriptor i) (sendValue e v) = true) :
    sendCommon e name v s =
      .next (s.emit (encReport s (.encReject (BitVec.ofNat 16 i) (sendValue e v) e))) := by
  simp [sendCommon, hstale, hname, hbuf, hvalid, raised_encLogEn]

/-- Settles O35: the scan of the names finds none. -/
theorem unknownSignalIsReported : Obligations.UnknownSignalIsReported := by
  unfold Obligations.UnknownSignalIsReported
  intro e name v s hstale hname
  rw [exec_sendInstr]
  exact sendCommon_of_unknown e v hstale (findName_eq_none.mpr hname)

/-- Settles O36: the scan of the buffers finds none. -/
theorem missingBufferIsReported : Obligations.MissingBufferIsReported := by
  unfold Obligations.MissingBufferIsReported
  intro e name v s i hstale hname hbuf
  rw [exec_sendInstr]
  exact sendCommon_of_no_buffer e v hstale (findName_eq_some.mpr hname)
    (findBuffer_eq_none.mpr hbuf)

/-- Settles O37: the three conditions of the statement are the validation. -/
theorem invalidSendIsRejected : Obligations.InvalidSendIsRejected := by
  unfold Obligations.InvalidSendIsRejected
  intro e name v s i j hstale hname hbuf hinvalid
  rw [← sendValue_eq_spec, ← sendValid_iff] at hinvalid
  rw [exec_sendInstr, ← sendValue_eq_spec]
  exact sendCommon_of_invalid hstale (findName_eq_some.mpr hname) (findBuffer_eq_some.mpr hbuf)
    hinvalid

/-- Settles O40: a report's event is gated by the log enable, a transmission's is not. -/
theorem sendAppendsOneEvent : Obligations.SendAppendsOneEvent := by
  unfold Obligations.SendAppendsOneEvent
  intro e name v s t h
  rw [exec_sendInstr] at h
  rcases sendCommon_next h with ⟨r, rfl⟩ | ⟨j, data, -, -, rfl⟩
  · constructor
    · intro hlog
      exact ⟨.rpt .warning r, by simp [hlog]⟩
    · intro hlog
      exact .inl (by simp [hlog])
  · exact ⟨fun _ => ⟨_, rfl⟩, fun _ => .inr ⟨_, rfl⟩⟩

/-- A send whose event is a `TX` has passed both lookups, the validation and the pack (R170). -/
theorem sendCommon_transmits {e : EntryPoint} {name : Name} {v : Half} {s t : State} {f : Frame}
    (h : sendCommon e name v s = .next t) (hout : t.out = s.out ++ [.tx f]) :
    ∃ i j data, findName s name = some i ∧ findBuffer s (s.descriptor i).frameId = some j ∧
      sendValid s e (s.descriptor i) (sendValue e v) = true ∧
      packFor (s.descriptor i) (sendValue e v) (s.buffer j).data = some data ∧
      t = (s.setBufferData j data).emit [.tx { s.buffer j with data := data }] := by
  rcases sendCommon_cases e name v s with
    ⟨r, he⟩ | ⟨r, he⟩ | ⟨i, j, data, hname, hbuf, hvalid, hpack, he⟩
  · rw [he] at h
    cases h
  · rw [he] at h
    cases h
    exact absurd (List.append_cancel_left hout) (raised_ne_tx _ r f)
  · rw [he] at h
    cases h
    exact ⟨i, j, data, hname, hbuf, hvalid, hpack, rfl⟩

/-- Settles O42: a transmitting send has passed the type check of the state's policy. -/
theorem transmitRespectsTypePolicy : Obligations.TransmitRespectsTypePolicy := by
  unfold Obligations.TransmitRespectsTypePolicy
  intro e name v s t f h hout
  rw [exec_sendInstr] at h
  obtain ⟨i, j, data, hname, -, hvalid, -, -⟩ := sendCommon_transmits h hout
  obtain ⟨-, htype, -, -⟩ := sendValid_iff.mp hvalid
  refine ⟨i, findName_eq_some.mp hname, ?_, ?_, sendValid_supported hvalid⟩
  · intro hfixed
    simpa [State.TypeAccepted, hfixed] using htype
  · intro hreference
    simpa [State.TypeAccepted, hreference] using htype

/-! The bits a command's pack leaves (R116, R121, R178). -/

/-- The engine row of a supported type is a pack on the window of that type (R85, R116). -/
theorem packRow_of_supported {t : TypeTag} (h : t ≠ .unsupported) :
    ∃ n, t.windowBytes = some n ∧
      ((∃ b, (if t = .u16 then Instr.pack16 else .pack8 0) = .pack8 b) ∧ n = 1 ∨
        (if t = .u16 then Instr.pack16 else .pack8 0) = .pack16 ∧ n = 2) := by
  cases t with
  | bool | u8 => exact ⟨1, rfl, .inl ⟨⟨0, rfl⟩, rfl⟩⟩
  | u16 => exact ⟨2, rfl, .inr ⟨rfl, rfl⟩⟩
  | unsupported => exact absurd rfl h

/-- A command's pack of a fitting value sets the descriptor's field and no other bit: it is the pack
of the descriptor's engine row on the datapath. -/
theorem packFor_writes_field {d : Descriptor} {v : Half} {p data : Payload}
    (hpack : packFor d v p = some data) (hsup : d.type ≠ .unsupported) (hfit : DescFit d = true)
    (hvalue : v.toNat < 2 ^ (d.endBit.toNat - d.startBit.toNat + 1)) :
    ∀ k < 64, data.toBits.getLsbD k =
      if d.startBit.toNat ≤ k ∧ k ≤ d.endBit.toNat then v.getLsbD (k - d.startBit.toNat)
      else p.toBits.getLsbD k := by
  have hok : DescOK d = true := by
    rw [← packFor_isSome v p hsup, hpack]
    rfl
  obtain ⟨n, hn, hrow⟩ := packRow_of_supported hsup
  simp only [DescOK, DescFit, hn] at hok hfit
  obtain ⟨u, hu, hbits⟩ :=
    packWritesPayloadField (State.reset.withOperands d v p) _ n hrow hok hfit hvalue
  have hends := execPackFor_ends State.reset d v p
  rw [hpack, hu] at hends
  obtain rfl : data = u.dp.payload := Option.some.inj hends.answer_of_next
  exact hbits

/-- Settles O43: a transmitting send has packed into the buffer it found. -/
theorem successfulSendWritesTheField : Obligations.SuccessfulSendWritesTheField := by
  unfold Obligations.SuccessfulSendWritesTheField
  intro e name v s t f i h hout hfirst hfit hvalue
  rw [exec_sendInstr] at h
  rw [← sendValue_eq_spec] at hvalue ⊢
  obtain ⟨i', j, data, hname, hbuf, hvalid, hpack, rfl⟩ := sendCommon_transmits h hout
  obtain rfl : i = i' := Option.some.inj ((findName_eq_some.mpr hfirst).symm.trans hname)
  refine ⟨j, findBuffer_eq_some.mp hbuf, ?_⟩
  rw [State.emit_buffer, State.setBufferData_buffer_self]
  exact packFor_writes_field hpack (sendValid_supported hvalid) hfit hvalue

end Sys2Proof.Machine

namespace Sys2Proof.Machine

/-! The two INIT commands (R200, R201, R203): the next state, in full and in every state. -/

/-- INIT_DEC: no field it writes is read from the state before (R203). -/
theorem exec_initDec (tbl log : Bool) (cb : BitVec 3) (len : Len) (s : State) :
    exec (.initDec tbl log cb len) s = .next (State.giveResult
      { s with
        dtLen := if tbl then len else 0
        decLogEn := log
        cbEn := cb
        decReady := initDecOk tbl log
        dtStale := false } (initDecOk tbl log)) := rfl

/-- INIT_ENC: no field it writes is read from the state before (R203). -/
theorem exec_initEnc (lb log tx : Bool) (len : Len) (s : State) :
    exec (.initEnc lb log tx len) s = .next (State.giveResult
      { s with
        lbLen := if lb then len else 0
        encLogEn := log
        encReady := initEncOk lb log tx len } (initEncOk lb log tx len)) := rfl

/-- The success predicate of INIT_ENC, condition by condition (R201). -/
theorem initEncOk_iff {lb log tx : Bool} {len : Len} :
    initEncOk lb log tx len = true ↔ lb = true ∧ len ≠ 0 ∧ log = true ∧ tx = true := by
  simp only [initEncOk, Bool.and_eq_true, bne_iff_ne, and_assoc]

/-- Settles O9: the fields of `exec_initDec`, read off. -/
theorem initDecWritesItsFields : Obligations.InitDecWritesItsFields := by
  unfold Obligations.InitDecWritesItsFields
  intro tbl log cb len s
  exact ⟨_, exec_initDec tbl log cb len s, rfl, rfl, rfl, rfl, rfl, rfl⟩

/-- Settles O10: the ready bit is the success predicate, and the result bit is the ready bit. -/
theorem initEncWritesItsFields : Obligations.InitEncWritesItsFields := by
  unfold Obligations.InitEncWritesItsFields
  intro lb log tx len s
  exact ⟨_, exec_initEnc lb log tx len s, rfl, rfl, initEncOk_iff, rfl, rfl⟩

/-- Settles O11: neither INIT writes a field other than those the statement names, so both tables
read as before. -/
theorem initFrames : Obligations.InitFrames := by
  unfold Obligations.InitFrames
  constructor
  · intro tbl log cb len s t h
    rw [exec_initDec] at h
    cases h
    exact ⟨rfl, State.giveResult_descriptor _ _, State.giveResult_buffer _ _⟩
  · intro lb log tx len s t h
    rw [exec_initEnc] at h
    cases h
    exact ⟨rfl, State.giveResult_descriptor _ _, State.giveResult_buffer _ _⟩

/-- Settles O12: the later INIT writes the same values in any two states, whether or not the earlier
one led to them. -/
theorem laterInitReplacesConfiguration : Obligations.LaterInitReplacesConfiguration := by
  unfold Obligations.LaterInitReplacesConfiguration
  constructor
  · intro _ _ tbl log _ cb _ len s u _
    exact ⟨_, _, exec_initDec tbl log cb len u, exec_initDec tbl log cb len s, rfl, rfl, rfl, rfl⟩
  · intro _ _ _ lb log tx _ len s u _
    exact ⟨_, _, exec_initEnc lb log tx len u, exec_initEnc lb log tx len s, rfl, rfl, rfl⟩

end Sys2Proof.Machine

namespace Sys2Proof.Machine

/-! Conditions and idleness: the block reports or refuses and never traps (R220, R225), and an idle
block does nothing (R251). -/

/-- Settles O57: the sequencer has nothing to take up. -/
theorem idleBlockKeepsItsState : Obligations.IdleBlockKeepsItsState := by
  unfold Obligations.IdleBlockKeepsItsState
  intro s hrequest hport
  have hfetch : s.fetch = .idle := by simp only [State.fetch, hrequest, hport]
  simp only [step, hfetch]

theorem tx_notMem_raised (f : Frame) (logEn : Bool) (r : Report) :
    Event.tx f ∉ raised logEn r := by
  cases logEn <;> simp

/-- Settles O44: a send that transmits has a ready encoder, so this one raised its report. -/
theorem notReadyEncoderNeverTransmits : Obligations.NotReadyEncoderNeverTransmits := by
  unfold Obligations.NotReadyEncoderNeverTransmits
  intro e name v s t hready h
  rw [exec_sendInstr] at h
  rcases sendCommon_next h with ⟨r, rfl⟩ | ⟨j, data, -, hready', -⟩
  · exact ⟨_, rfl, fun f => tx_notMem_raised f _ r⟩
  · rw [hready] at hready'
    cases hready'

/-- Settles O52: a send that raises only appends its event, and the event of a transmission is no
report. -/
theorem reportedSendChangesNothing : Obligations.ReportedSendChangesNothing := by
  unfold Obligations.ReportedSendChangesNothing
  intro e name v s t sev r h hout
  rw [exec_sendInstr] at h
  rcases sendCommon_next h with ⟨r', rfl⟩ | ⟨j, data, -, -, rfl⟩
  · have hevents : raised s.encLogEn r' = [.rpt sev r] := List.append_cancel_left hout
    rw [hevents]
    rfl
  · have hevents : [Event.tx { s.buffer j with data := data }] = [.rpt sev r] :=
      List.append_cancel_left hout
    cases hevents

theorem execProcessFrame_ne_fault (f : Frame) (s : State) (r : Fault) :
    execProcessFrame f s ≠ .fault r := by
  rcases execProcessFrame_cases f s with ⟨es, h⟩ | ⟨r', h⟩ <;> simp [h]

theorem sendCommon_ne_fault (e : EntryPoint) (name : Name) (v : Half) (s : State) (r : Fault) :
    sendCommon e name v s ≠ .fault r := by
  rcases sendCommon_cases e name v s with ⟨r', h⟩ | ⟨r', h⟩ | ⟨i, j, data, -, -, -, -, h⟩ <;>
    simp [h]

theorem EngineEnds.ne_fault {α : Type} {read : State → α} {answer : Option α}
    {o : Host.Outcome State Fault Refusal} (h : EngineEnds read answer o) (r : Fault) :
    o ≠ .fault r := by
  cases h <;> simp

/-- Settles O47, by the instructions: a scan, a send and an engine operation answer a next state or
refuse, and every other instruction answers one. -/
theorem noInstructionFaults : Obligations.NoInstructionFaults := by
  unfold Obligations.NoInstructionFaults
  intro i s r
  cases i with
  | processFrame f => exact execProcessFrame_ne_fault f s r
  | sendBool name v => exact sendCommon_ne_fault .bool name v s r
  | sendU8 name v => exact sendCommon_ne_fault .u8 name v s r
  | sendU16 name v => exact sendCommon_ne_fault .u16 name v s r
  | extract8 b => exact (execExtract8_ends b s).ne_fault r
  | extract16 => exact (execExtract16_ends s).ne_fault r
  | pack8 b => exact (execPack8_ends b s).ne_fault r
  | pack16 => exact (execPack16_ends s).ne_fault r
  | initDec _ _ _ _ | initEnc _ _ _ _ => exact nofun
  | reserved3 _ | reserved7 | unsupportedDec | unsupportedEnc => exact nofun

end Sys2Proof.Machine

namespace Sys2Proof.Machine

/-! The host's reset between commands (R250, R252). -/

theorem step_of_reset {s : State} {rest : List HostAction} (hr : s.dp.request = none)
    (hp : s.port = .reset :: rest) : step s = hostReset (s.withPort rest) := by
  simp only [step, State.fetch, hr, hp]

/-- Settles O54: the control fields and the stream are those of `State.reset`, which `resetValues`
gives, and both tables and the later actions are those of the state the reset was applied to. -/
theorem resetActionPutsResetValues : Obligations.ResetActionPutsResetValues := by
  unfold Obligations.ResetActionPutsResetValues
  intro s rest hr hp
  obtain ⟨hdecReady, hencReady, hdecLog, hencLog, hcb, hdtLen, hlbLen, hout⟩ := resetValues
  exact ⟨_, step_of_reset hr hp, hdecReady, hencReady, hdecLog, hencLog, hcb, hdtLen, hlbLen, hout,
    State.withPort_descriptor s rest, State.withPort_buffer s rest, rfl⟩

end Sys2Proof.Machine
